-- ==== Sys2Proof/Word.lean ====
section
/-! DEFINITION. The word types of the core (R8, R10, R16): bytes, 16-bit words, register numbers, addresses. -/

namespace Sys2Proof

/-- An 8-bit unsigned value: a V register, a timer, a memory cell (R8). -/
abbrev Byte := BitVec 8

/-- A 16-bit unsigned value: `I`, `pc`, a stack entry, an instruction word (R8). -/
abbrev Word := BitVec 16

/-- A register number 0x0-0xF, the X and Y fields of an instruction (R16, R51). -/
abbrev Reg := Fin 16

/-- The 12-bit address immediate NNN (R51, R53). -/
abbrev Addr := BitVec 12

/-- VF, the general register that is also the flag output (R17). -/
abbrev regF : Reg := 15

/-- V0, read implicitly by BNNN (R16, R75). -/
abbrev reg0 : Reg := 0

/-- Bytes of the memory array (R8 `MEM_SIZE`). -/
abbrev memSize : Nat := 4096

/-- Size of the font glyph table, at address 0 (R8 `FONT_SIZE`, `FONT_BASE`). -/
abbrev fontSize : Nat := 80

/-- Load address of the program image and reset value of pc (R8 `PROG_BASE`). -/
abbrev progBase : Nat := 0x200

/-- Largest program image (R8 `MAX_IMAGE`). -/
abbrev maxImage : Nat := memSize - progBase

/-- Columns and rows of the framebuffer (R8 `FB_W`, `FB_H`). -/
abbrev fbW : Nat := 64
abbrev fbH : Nat := 32

/-- Capacity of the return-address stack (R8 `STACK_DEPTH`). -/
abbrev stackDepth : Nat := 16

end Sys2Proof
end

