-- ==== Sys2Proof/Syntax.lean ====
section
/-! DEFINITION. The instruction set: one constructor per row of the opcode map of R54, in its order. -/

namespace Sys2Proof

/-- An instruction with its operand fields (R51, R52, R53). Register operands are register numbers,
immediates are the bits of their field, and DRW's row count is a number. -/
inductive Instr where
  /-- `00E0` CLS (R103) -/
  | cls
  /-- `00EE` RET (R72) -/
  | ret
  /-- `1NNN` JP addr (R73) -/
  | jp (nnn : Addr)
  /-- `2NNN` CALL addr (R74) -/
  | call (nnn : Addr)
  /-- `3XNN` SE Vx, byte (R76) -/
  | seByte (x : Reg) (nn : Byte)
  /-- `4XNN` SNE Vx, byte (R77) -/
  | sneByte (x : Reg) (nn : Byte)
  /-- `5XY0` SE Vx, Vy (R78) -/
  | seReg (x y : Reg)
  /-- `6XNN` LD Vx, byte (R82) -/
  | ldByte (x : Reg) (nn : Byte)
  /-- `7XNN` ADD Vx, byte (R84) -/
  | addByte (x : Reg) (nn : Byte)
  /-- `8XY0` LD Vx, Vy (R83) -/
  | ldReg (x y : Reg)
  /-- `8XY1` OR Vx, Vy (R85) -/
  | orReg (x y : Reg)
  /-- `8XY2` AND Vx, Vy (R86) -/
  | andReg (x y : Reg)
  /-- `8XY3` XOR Vx, Vy (R87) -/
  | xorReg (x y : Reg)
  /-- `8XY4` ADD Vx, Vy (R88) -/
  | addReg (x y : Reg)
  /-- `8XY5` SUB Vx, Vy (R89) -/
  | sub (x y : Reg)
  /-- `8XY6` SHR Vx, Vy (R91): Y is decoded and not used (R53) -/
  | shr (x y : Reg)
  /-- `8XY7` SUBN Vx, Vy (R90) -/
  | subn (x y : Reg)
  /-- `8XYE` SHL Vx, Vy (R92): Y is decoded and not used (R53) -/
  | shl (x y : Reg)
  /-- `9XY0` SNE Vx, Vy (R79) -/
  | sneReg (x y : Reg)
  /-- `ANNN` LD I, addr (R95) -/
  | ldI (nnn : Addr)
  /-- `BNNN` JP V0, addr (R75) -/
  | jpV0 (nnn : Addr)
  /-- `CXNN` RND Vx, byte (R93) -/
  | rnd (x : Reg) (nn : Byte)
  /-- `DXYN` DRW Vx, Vy, nibble (R104); `n` is the unsigned row count 0-15 (R53) -/
  | drw (x y : Reg) (n : Nat)
  /-- `EX9E` SKP Vx (R108) -/
  | skp (x : Reg)
  /-- `EXA1` SKNP Vx (R109) -/
  | sknp (x : Reg)
  /-- `FX07` LD Vx, DT (R111) -/
  | ldVxDt (x : Reg)
  /-- `FX0A` LD Vx, K (R110) -/
  | ldVxKey (x : Reg)
  /-- `FX15` LD DT, Vx (R112) -/
  | ldDtVx (x : Reg)
  /-- `FX18` LD ST, Vx (R113) -/
  | ldStVx (x : Reg)
  /-- `FX1E` ADD I, Vx (R96) -/
  | addI (x : Reg)
  /-- `FX29` LD F, Vx (R97) -/
  | ldFont (x : Reg)
  /-- `FX33` LD B, Vx (R98) -/
  | ldBcd (x : Reg)
  /-- `FX55` LD [I], Vx (R99) -/
  | storeRegs (x : Reg)
  /-- `FX65` LD Vx, [I] (R100) -/
  | loadRegs (x : Reg)
deriving DecidableEq, Repr

end Sys2Proof
end

