-- ==== Sys2Proof/WellFormed.lean ====
section
/-! DEFINITION. Which instruction terms fit the encoding's fields (R51, R53). Register numbers and
immediates carry their bounds in their types; DRW's row count is a number, so it is checked here. -/

namespace Sys2Proof

/-- The N field of DXYN has four bits: a row count is 0-15 (R53). -/
def rowCountFits (n : Nat) : Bool := decide (n < 16)

/-- The check, as a Bool. -/
def Instr.wellFormed (i : Instr) : Bool :=
  match i with
  | .drw _ _ n => rowCountFits n
  | .cls | .ret | .jp _ | .call _ | .seByte _ _ | .sneByte _ _ | .seReg _ _ | .ldByte _ _ | .addByte _ _
  | .ldReg _ _ | .orReg _ _ | .andReg _ _ | .xorReg _ _ | .addReg _ _ | .sub _ _ | .shr _ _ | .subn _ _
  | .shl _ _ | .sneReg _ _ | .ldI _ | .jpV0 _ | .rnd _ _ | .skp _ | .sknp _ | .ldVxDt _ | .ldVxKey _
  | .ldDtVx _ | .ldStVx _ | .addI _ | .ldFont _ | .ldBcd _ | .storeRegs _ | .loadRegs _ => true

/-- The term fits its encoding. -/
abbrev Instr.WellFormed (i : Instr) : Prop := i.wellFormed = true

end Sys2Proof
end

