-- ==== Sys2Proof/Decode.lean ====
section
/-! DEFINITION. The instruction word's fields (R51), the total decoder (R55, R62), the encoder (R52, R54)
and the opcode map as a table of match and mask (R54). -/

namespace Sys2Proof

/-- Why bytes decode to no instruction. -/
inductive DecodeError where
  /-- UNKNOWN (R56): the word matches no row; the step reports and skips it (R71). Safe: it is what the spec says. -/
  | unknownOpcode (w : Word)
  /-- Fewer than two bytes were given to `decodeBytes` (log 15); no fetch does this. Safe. -/
  | truncated
deriving DecidableEq, Repr

/-- `{hi, lo}`: the byte at the lower address supplies bits 15-8 (R10, R39). -/
def wordOfBytes (hi lo : Byte) : Word := hi ++ lo

/-- The byte of a word that lies at the lower address (R39). -/
def hiByte (w : Word) : Byte := w.extractLsb' 8 8

/-- The byte of a word that lies at the higher address (R39). -/
def loByte (w : Word) : Byte := w.extractLsb' 0 8

/-- The family `T = w[15:12]` (R51). -/
def fieldT (w : Word) : Nat := (w.extractLsb' 12 4).toNat

/-- `X = w[11:8]` (R51). -/
def fieldX (w : Word) : Reg := (w.extractLsb' 8 4).toFin

/-- `Y = w[7:4]` (R51). -/
def fieldY (w : Word) : Reg := (w.extractLsb' 4 4).toFin

/-- `N = w[3:0]` (R51). -/
def fieldN (w : Word) : Nat := (w.extractLsb' 0 4).toNat

/-- `NN = w[7:0]` (R51). -/
def fieldNN (w : Word) : Byte := w.extractLsb' 0 8

/-- `NNN = w[11:0]` (R51). -/
def fieldNNN (w : Word) : Addr := w.extractLsb' 0 12

/-- Family 0: only the words 00E0 and 00EE are instructions (R55, R57). -/
def decodeZero (w : Word) : Option Instr :=
  if w = 0x00E0#16 then some .cls else if w = 0x00EE#16 then some .ret else none

/-- Families 5 and 9: a register skip when N = 0, else UNKNOWN (R55, R56). -/
def decodeSkipReg (mk : Reg → Reg → Instr) (w : Word) : Option Instr :=
  if fieldN w = 0 then some (mk (fieldX w) (fieldY w)) else none

/-- Family 8: N selects the operation (R55). -/
def decodeAlu (w : Word) : Option Instr :=
  match fieldN w with
  | 0x0 => some (.ldReg (fieldX w) (fieldY w))
  | 0x1 => some (.orReg (fieldX w) (fieldY w))
  | 0x2 => some (.andReg (fieldX w) (fieldY w))
  | 0x3 => some (.xorReg (fieldX w) (fieldY w))
  | 0x4 => some (.addReg (fieldX w) (fieldY w))
  | 0x5 => some (.sub (fieldX w) (fieldY w))
  | 0x6 => some (.shr (fieldX w) (fieldY w))
  | 0x7 => some (.subn (fieldX w) (fieldY w))
  | 0xE => some (.shl (fieldX w) (fieldY w))
  | _ => none

/-- Family E: NN selects the key test (R55). -/
def decodeKeyTest (w : Word) : Option Instr :=
  match (fieldNN w).toNat with
  | 0x9E => some (.skp (fieldX w))
  | 0xA1 => some (.sknp (fieldX w))
  | _ => none

/-- Family F: NN selects the operation (R55). -/
def decodeMisc (w : Word) : Option Instr :=
  match (fieldNN w).toNat with
  | 0x07 => some (.ldVxDt (fieldX w))
  | 0x0A => some (.ldVxKey (fieldX w))
  | 0x15 => some (.ldDtVx (fieldX w))
  | 0x18 => some (.ldStVx (fieldX w))
  | 0x1E => some (.addI (fieldX w))
  | 0x29 => some (.ldFont (fieldX w))
  | 0x33 => some (.ldBcd (fieldX w))
  | 0x55 => some (.storeRegs (fieldX w))
  | 0x65 => some (.loadRegs (fieldX w))
  | _ => none

/-- `decode(w)` of R55, `none` for UNKNOWN. -/
def decodeRow (w : Word) : Option Instr :=
  match fieldT w with
  | 0x0 => decodeZero w
  | 0x1 => some (.jp (fieldNNN w))
  | 0x2 => some (.call (fieldNNN w))
  | 0x3 => some (.seByte (fieldX w) (fieldNN w))
  | 0x4 => some (.sneByte (fieldX w) (fieldNN w))
  | 0x5 => decodeSkipReg .seReg w
  | 0x6 => some (.ldByte (fieldX w) (fieldNN w))
  | 0x7 => some (.addByte (fieldX w) (fieldNN w))
  | 0x8 => decodeAlu w
  | 0x9 => decodeSkipReg .sneReg w
  | 0xA => some (.ldI (fieldNNN w))
  | 0xB => some (.jpV0 (fieldNNN w))
  | 0xC => some (.rnd (fieldX w) (fieldNN w))
  | 0xD => some (.drw (fieldX w) (fieldY w) (fieldN w))
  | 0xE => decodeKeyTest w
  | 0xF => decodeMisc w
  | _ => none

/-- The decoder (R55, R62): every 16-bit word yields one of the 34 instructions or UNKNOWN, by name. -/
def decode (w : Word) : Except DecodeError Instr :=
  match decodeRow w with
  | some i => .ok i
  | none => .error (.unknownOpcode w)

/-- The decoder over bytes as memory holds them (R39, R50): the instruction and the bytes after its word. -/
def decodeBytes (bs : List Byte) : Except DecodeError (Instr × List Byte) :=
  match bs with
  | hi :: lo :: rest => (decode (wordOfBytes hi lo)).map (fun i => (i, rest))
  | [_] => .error .truncated
  | [] => .error .truncated

/-- The word of R54's table whose row is given in bits: `nbits` bits of `w`, the rest of the word 0. -/
def tableWord (nbits w : Nat) : Word := BitVec.ofNat 16 (w % 2 ^ nbits)

/-- The instruction the decoder reads from a word numbered as `opcode_table.json` numbers it. -/
def decodeTableWord (nbits w : Nat) : Option Instr :=
  match decodeBytes [hiByte (tableWord nbits w), loByte (tableWord nbits w)] with
  | .ok (i, _) => some i
  | .error _ => none

/-! ## The encoder, from the formats of R52 and the fixed digits of R54's patterns -/

/-- Format A: T NNN. -/
def encodeA (t : BitVec 4) (nnn : Addr) : Word := t ++ nnn

/-- Formats XNN and XS: T X and a byte that is NN or the selector. -/
def encodeXNN (t : BitVec 4) (x : Reg) (nn : Byte) : Word := t ++ (BitVec.ofFin x : BitVec 4) ++ nn

/-- Formats XY and XYN: T X Y and a nibble that is the selector or N. -/
def encodeXYN (t : BitVec 4) (x y : Reg) (n : BitVec 4) : Word :=
  t ++ (BitVec.ofFin x : BitVec 4) ++ (BitVec.ofFin y : BitVec 4) ++ n

/-- The word of a well-formed instruction (R52, R54). -/
def encode (i : Instr) : Word :=
  match i with
  | .cls => 0x00E0#16
  | .ret => 0x00EE#16
  | .jp nnn => encodeA 0x1#4 nnn
  | .call nnn => encodeA 0x2#4 nnn
  | .seByte x nn => encodeXNN 0x3#4 x nn
  | .sneByte x nn => encodeXNN 0x4#4 x nn
  | .seReg x y => encodeXYN 0x5#4 x y 0x0#4
  | .ldByte x nn => encodeXNN 0x6#4 x nn
  | .addByte x nn => encodeXNN 0x7#4 x nn
  | .ldReg x y => encodeXYN 0x8#4 x y 0x0#4
  | .orReg x y => encodeXYN 0x8#4 x y 0x1#4
  | .andReg x y => encodeXYN 0x8#4 x y 0x2#4
  | .xorReg x y => encodeXYN 0x8#4 x y 0x3#4
  | .addReg x y => encodeXYN 0x8#4 x y 0x4#4
  | .sub x y => encodeXYN 0x8#4 x y 0x5#4
  | .shr x y => encodeXYN 0x8#4 x y 0x6#4
  | .subn x y => encodeXYN 0x8#4 x y 0x7#4
  | .shl x y => encodeXYN 0x8#4 x y 0xE#4
  | .sneReg x y => encodeXYN 0x9#4 x y 0x0#4
  | .ldI nnn => encodeA 0xA#4 nnn
  | .jpV0 nnn => encodeA 0xB#4 nnn
  | .rnd x nn => encodeXNN 0xC#4 x nn
  | .drw x y n => encodeXYN 0xD#4 x y (BitVec.ofNat 4 n)
  | .skp x => encodeXNN 0xE#4 x 0x9E#8
  | .sknp x => encodeXNN 0xE#4 x 0xA1#8
  | .ldVxDt x => encodeXNN 0xF#4 x 0x07#8
  | .ldVxKey x => encodeXNN 0xF#4 x 0x0A#8
  | .ldDtVx x => encodeXNN 0xF#4 x 0x15#8
  | .ldStVx x => encodeXNN 0xF#4 x 0x18#8
  | .addI x => encodeXNN 0xF#4 x 0x1E#8
  | .ldFont x => encodeXNN 0xF#4 x 0x29#8
  | .ldBcd x => encodeXNN 0xF#4 x 0x33#8
  | .storeRegs x => encodeXNN 0xF#4 x 0x55#8
  | .loadRegs x => encodeXNN 0xF#4 x 0x65#8

/-- The two bytes of an instruction as memory holds them (R39). -/
def encodeBytes (i : Instr) : List Byte := [hiByte (encode i), loByte (encode i)]

/-! ## The opcode map of R54, row by row -/

/-- A row of R54: a word `w` selects it when `w AND mask = match`. -/
structure OpcodeRow where
  mnemonic : String
  matchBits : Word
  mask : Word
deriving DecidableEq, Repr

/-- R54's row number `#`, counted from 0, of an instruction. -/
def rowNumber (i : Instr) : Nat :=
  match i with
  | .cls => 0 | .ret => 1 | .jp _ => 2 | .call _ => 3 | .seByte _ _ => 4 | .sneByte _ _ => 5
  | .seReg _ _ => 6 | .ldByte _ _ => 7 | .addByte _ _ => 8 | .ldReg _ _ => 9 | .orReg _ _ => 10
  | .andReg _ _ => 11 | .xorReg _ _ => 12 | .addReg _ _ => 13 | .sub _ _ => 14 | .shr _ _ => 15
  | .subn _ _ => 16 | .shl _ _ => 17 | .sneReg _ _ => 18 | .ldI _ => 19 | .jpV0 _ => 20 | .rnd _ _ => 21
  | .drw _ _ _ => 22 | .skp _ => 23 | .sknp _ => 24 | .ldVxDt _ => 25 | .ldVxKey _ => 26 | .ldDtVx _ => 27
  | .ldStVx _ => 28 | .addI _ => 29 | .ldFont _ => 30 | .ldBcd _ => 31 | .storeRegs _ => 32 | .loadRegs _ => 33

/-- Rows 1-19 of R54. -/
def opcodeRowsLow : List OpcodeRow :=
  [⟨"CLS", 0x00E0#16, 0xFFFF#16⟩, ⟨"RET", 0x00EE#16, 0xFFFF#16⟩, ⟨"JP_addr", 0x1000#16, 0xF000#16⟩,
   ⟨"CALL_addr", 0x2000#16, 0xF000#16⟩, ⟨"SE_Vx__byte", 0x3000#16, 0xF000#16⟩, ⟨"SNE_Vx__byte", 0x4000#16, 0xF000#16⟩,
   ⟨"SE_Vx__Vy", 0x5000#16, 0xF00F#16⟩, ⟨"LD_Vx__byte", 0x6000#16, 0xF000#16⟩, ⟨"ADD_Vx__byte", 0x7000#16, 0xF000#16⟩,
   ⟨"LD_Vx__Vy", 0x8000#16, 0xF00F#16⟩, ⟨"OR_Vx__Vy", 0x8001#16, 0xF00F#16⟩, ⟨"AND_Vx__Vy", 0x8002#16, 0xF00F#16⟩,
   ⟨"XOR_Vx__Vy", 0x8003#16, 0xF00F#16⟩, ⟨"ADD_Vx__Vy", 0x8004#16, 0xF00F#16⟩, ⟨"SUB_Vx__Vy", 0x8005#16, 0xF00F#16⟩,
   ⟨"SHR_Vx__Vy", 0x8006#16, 0xF00F#16⟩, ⟨"SUBN_Vx__Vy", 0x8007#16, 0xF00F#16⟩, ⟨"SHL_Vx__Vy", 0x800E#16, 0xF00F#16⟩,
   ⟨"SNE_Vx__Vy", 0x9000#16, 0xF00F#16⟩]

/-- Rows 20-34 of R54. -/
def opcodeRowsHigh : List OpcodeRow :=
  [⟨"LD_I__addr", 0xA000#16, 0xF000#16⟩, ⟨"JP_V0__addr", 0xB000#16, 0xF000#16⟩, ⟨"RND_Vx__byte", 0xC000#16, 0xF000#16⟩,
   ⟨"DRW_Vx__Vy__nibble", 0xD000#16, 0xF000#16⟩, ⟨"SKP_Vx", 0xE09E#16, 0xF0FF#16⟩, ⟨"SKNP_Vx", 0xE0A1#16, 0xF0FF#16⟩,
   ⟨"LD_Vx__DT", 0xF007#16, 0xF0FF#16⟩, ⟨"LD_Vx__K", 0xF00A#16, 0xF0FF#16⟩, ⟨"LD_DT__Vx", 0xF015#16, 0xF0FF#16⟩,
   ⟨"LD_ST__Vx", 0xF018#16, 0xF0FF#16⟩, ⟨"ADD_I__Vx", 0xF01E#16, 0xF0FF#16⟩, ⟨"LD_F__Vx", 0xF029#16, 0xF0FF#16⟩,
   ⟨"LD_B__Vx", 0xF033#16, 0xF0FF#16⟩, ⟨"LD__I___Vx", 0xF055#16, 0xF0FF#16⟩, ⟨"LD_Vx___I", 0xF065#16, 0xF0FF#16⟩]

/-- The complete instruction set of R54, in its order. -/
def opcodeRows : List OpcodeRow := opcodeRowsLow ++ opcodeRowsHigh

/-- The word selects the row (R54). -/
def OpcodeRow.selects (r : OpcodeRow) (w : Word) : Bool := w &&& r.mask == r.matchBits

/-- The first row of R54's table that the word matches, by number (R55: "the first match in the table"). -/
def firstRow (w : Word) : Option Nat := opcodeRows.findIdx? (·.selects w)

end Sys2Proof
end

