-- ==== Sys2Proof/Config.lean ====
section
/-! DEFINITION. What the source leaves open: the parameters of R9, each with all its values, and the free values. -/

namespace Sys2Proof

/-- `DRAW_EDGE` (R9, R102): what happens to a sprite pixel past the right or bottom edge. -/
inductive DrawEdge where
  | wrap | clip
deriving DecidableEq, Repr

/-- `VF_WRITE_ORDER` (R9, R68): which of the two writes of a flag-producing ALU instruction comes first. -/
inductive VfWriteOrder where
  | flagThenResult | resultThenFlag
deriving DecidableEq, Repr

/-- `KEY_SELECT` (R9, R110): which of several pressed keys FX0A takes. -/
inductive KeySelect where
  | any | lowest
deriving DecidableEq, Repr

/-- `PC_ODD_POLICY` (R9, R40): a fetch at an odd pc faults, or fetches as at an even one. -/
inductive PcOddPolicy where
  | fault | fetch
deriving DecidableEq, Repr

/-- `FONT_WRITE_POLICY` (R9, R37): a store into the font region faults, or is performed. -/
inductive FontWritePolicy where
  | fault | allow
deriving DecidableEq, Repr

/-- The seven parameters of R9; "a model takes each as an argument with the stated default".
The defaults are `Machine.defaultParams`; log 1 says why the machine carries its parameters in State. -/
structure Params where
  /-- `FONT_TABLE` (R25): any 80 bytes. -/
  fontTable : Vector Byte fontSize
  drawEdge : DrawEdge
  /-- `DRAW_VF_CLEAR` (R105): VF becomes 0 after a draw without collision, or keeps its value. -/
  drawVfClear : Bool
  vfWriteOrder : VfWriteOrder
  keySelect : KeySelect
  pcOdd : PcOddPolicy
  fontWrite : FontWritePolicy
deriving DecidableEq, Repr

/-- FREE VALUE (R70, D10; log 4): the random input byte of the n-th draw, under no law. -/
opaque Config.randomByte : Nat → Byte

/-- FREE VALUE (R110, D8; log 5): the choice `draw_key` makes at the n-th draw, taken modulo the number of pressed keys. -/
opaque Config.keyChoice : Nat → Nat

end Sys2Proof
end

