-- ==== Sys2Proof/Machine/Params.lean ====
section
/-! DEFINITION. The default values of the parameters of R9, and the default font table of R25. -/

namespace Sys2Proof.Machine

/-- Glyphs 0-7 of R25's default `FONT_TABLE` (PRESUMED by the spec itself: general knowledge, not in source; log 3). -/
def fontLow : List Byte :=
  [0xF0, 0x90, 0x90, 0x90, 0xF0,  0x20, 0x60, 0x20, 0x20, 0x70,
   0xF0, 0x10, 0xF0, 0x80, 0xF0,  0xF0, 0x10, 0xF0, 0x10, 0xF0,
   0x90, 0x90, 0xF0, 0x10, 0x10,  0xF0, 0x80, 0xF0, 0x10, 0xF0,
   0xF0, 0x80, 0xF0, 0x90, 0xF0,  0xF0, 0x10, 0x20, 0x40, 0x40]

/-- Glyphs 8-F of R25's default `FONT_TABLE` (log 3). -/
def fontHigh : List Byte :=
  [0xF0, 0x90, 0xF0, 0x90, 0xF0,  0xF0, 0x90, 0xF0, 0x10, 0xF0,
   0xF0, 0x90, 0xF0, 0x90, 0x90,  0xE0, 0x90, 0xE0, 0x90, 0xE0,
   0xF0, 0x80, 0x80, 0x80, 0xF0,  0xE0, 0x90, 0x90, 0x90, 0xE0,
   0xF0, 0x80, 0xF0, 0x80, 0xF0,  0xF0, 0x80, 0xF0, 0x80, 0x80]

/-- The default `FONT_TABLE` of R25: glyph d at bytes 5d .. 5d+4. -/
def defaultFont : Vector Byte fontSize := ⟨(fontLow ++ fontHigh).toArray, rfl⟩

/-- The defaults of R9 (the spec's own choices D2-D6, D8, D11; log 2). -/
def defaultParams : Params where
  fontTable := defaultFont
  drawEdge := .wrap
  drawVfClear := true
  vfWriteOrder := .flagThenResult
  keySelect := .any
  pcOdd := .fault
  fontWrite := .fault

end Sys2Proof.Machine
end

