-- ==== Sys2Proof/Machine/State.lean ====
section
/-! DEFINITION. The state record of R14, its reset value (R31), and the reasons a step can stop. -/

namespace Sys2Proof.Machine

/-- The fatal faults of R114, each with the info it records. A raise is a NEXT state whose `fault` field holds
one of these (R118; log 7), so every constructor here is the spec's own report: safe. -/
inductive Fault where
  /-- Code 1. Raised by 2NNN when the stack holds 16 entries (R74); the info is the pc of the 2NNN. Safe: R114. -/
  | stackOverflow (pc : Word)
  /-- Code 2. Raised by 00EE when the stack is empty (R72); the info is the pc of the 00EE. Safe: R114. -/
  | stackUnderflow (pc : Word)
  /-- Code 3. Raised by fetch, DXYN, FX33, FX55, FX65 on a byte access above 0xFFF (R34); the info is the address. Safe: R114. -/
  | addressOutOfRange (a : Nat)
  /-- Code 4. Raised by fetch at an odd pc under `PC_ODD_POLICY = fault` (R61); the info is the pc. Safe: R114. -/
  | misalignedFetch (pc : Word)
  /-- Code 5. Raised by EX9E and EXA1 when vx > 0x0F (R107); the info is vx. Safe: R114. -/
  | keyIndexOutOfRange (vx : Byte)
  /-- Code 6. Raised by FX33 and FX55 on a store to 0x000-0x04F under `FONT_WRITE_POLICY = fault` (R37); the info is the address. Safe: R114. -/
  | fontRegionWrite (a : Nat)
deriving DecidableEq, Repr

/-- Reasons to refuse. -/
inductive Refusal where
  /-- An instruction whose meaning is not written. No arm of `exec` answers it. Safe: nothing is claimed of such an instruction. -/
  | notModelled (mnemonic : String)
deriving DecidableEq, Repr

/-- What a checked access does (the `kind` of R38). -/
inductive AccessKind where
  | read | write
deriving DecidableEq, Repr

/-- The memory array M (R24): the cells whose content is not their reset content, addresses strictly rising (log 10). -/
abbrev Memory := List Host.Cell

/-- The framebuffer (R26): 32 rows of 64 one-bit pixels; pixel (x, y) is bit x of row y (log 11). -/
abbrev FrameBuffer := Vector (BitVec fbW) fbH

/-- The keypad (R28): bit k is `KEY[k]` (log 11). -/
abbrev Keypad := BitVec 16

/-- The state record of R14, and two fields of the model's own (`params`, `draws`). -/
structure State where
  /-- V0-VF (R16). -/
  v : Vector Byte 16
  /-- The index register I (R19). -/
  i : Word
  /-- The program counter (R20). -/
  pc : Word
  /-- The stack entries S[0..15] (R21). -/
  stack : Vector Word stackDepth
  /-- The stack depth SP, 0..16 (R21). -/
  sp : Fin (stackDepth + 1)
  /-- The delay timer DT (R22). -/
  dt : Byte
  /-- The sound timer ST (R22). -/
  st : Byte
  /-- The memory array M (R24). -/
  mem : Memory
  /-- The framebuffer FB (R26). -/
  fb : FrameBuffer
  /-- The redraw flag (R27). -/
  redraw : Bool
  /-- The keypad KEY (R28). -/
  key : Keypad
  /-- The fault status (R29). -/
  fault : Option Fault
  /-- MODEL'S OWN: the parameters of R9, written by no operation (log 1). -/
  params : Params
  /-- MODEL'S OWN: how many free values have been drawn (log 6). -/
  draws : Nat
deriving DecidableEq, Repr

/-- The reset values of R31, for a machine with the parameters `p` and a supply of free values at `draws`. -/
def State.resetWith (p : Params) (draws : Nat) : State where
  v := Vector.replicate 16 0
  i := 0
  pc := 0x200#16
  stack := Vector.replicate stackDepth 0
  sp := 0
  dt := 0
  st := 0
  mem := []
  fb := Vector.replicate fbH 0
  redraw := true
  key := 0
  fault := none
  params := p
  draws := draws

/-- The machine right after reset (R31, R131), with R9's default parameters. -/
def State.reset : State := State.resetWith defaultParams 0

end Sys2Proof.Machine
end

