-- ==== Sys2Proof/Machine/Ops.lean ====
section
/-! DEFINITION. The shared operations over registers, memory, stack and fault status:
the accessors, the checked accesses of R34-R38, the fetch of R61, raising a fault (R118) and initialize (R130). -/

namespace Sys2Proof.Machine

/-- What the meanings and the step answer. -/
abbrev Result := Host.Outcome State Fault Refusal

/-! ## Registers and the other single fields -/

/-- `V[x]` (R11). -/
def State.reg (s : State) (x : Reg) : Byte := s.v[x]

/-- `V[x] <- b` (R11). No register is hard-wired (R16). -/
def State.setReg (s : State) (x : Reg) (b : Byte) : State := { s with v := s.v.set x b }

/-- `I <- w` (R19). -/
def State.setIndex (s : State) (w : Word) : State := { s with i := w }

/-- `pc <- target` (R11). -/
def State.setPc (s : State) (w : Word) : State := { s with pc := w }

/-- `pc <- (pc + 2) mod 65536` (R65). -/
def State.advance (s : State) : State := s.setPc (s.pc + 2#16)

/-- `pc <- (pc + 4) mod 65536` when the condition holds, else `pc + 2` (R65, the skips). -/
def State.skipIf (s : State) (c : Bool) : State := s.setPc (if c then s.pc + 4#16 else s.pc + 2#16)

/-- `DT <- b` (R22). -/
def State.setDelay (s : State) (b : Byte) : State := { s with dt := b }

/-- `ST <- b` (R22). -/
def State.setSound (s : State) (b : Byte) : State := { s with st := b }

/-- `FB <- fb; redraw <- 1` (R27: the core sets the flag with every 00E0 and DXYN). -/
def State.setDisplay (s : State) (fb : FrameBuffer) : State := { s with fb := fb, redraw := true }

/-- A free value has been taken (log 6). -/
def State.countDraw (s : State) : State := { s with draws := s.draws + 1 }

/-! ## Raising a fault, and the only way out -/

/-- `fault <- F(v)` and nothing else (R118). -/
def State.setFault (s : State) (f : Fault) : State := { s with fault := some f }

/-- `raise F(info)` (R11, R118): the step ends with the state as before it but for `fault`. A halt, not a trap (R119). -/
def raise (f : Fault) (s : State) : Result := .next (s.setFault f)

/-- `initialize()` (R130): every piece of state at its reset value; the only way out of a fault (R119).
The parameters stay the machine's, and free values are not drawn twice (log 6). -/
def initCore (s : State) : State := State.resetWith s.params s.draws

/-! ## The stack (R21) -/

/-- `S[SP] <- v; SP <- SP + 1`, or nothing at SP = 16 (R21, R74). -/
def State.push (s : State) (w : Word) : Option State :=
  if h : s.sp.val < stackDepth then
    some { s with stack := s.stack.set s.sp.val w h, sp := ⟨s.sp.val + 1, by omega⟩ }
  else none

/-- `SP <- SP - 1; v <- S[SP]`, or nothing at SP = 0 (R21, R72). The entry is not cleared (R72). -/
def State.pop (s : State) : Option (Word × State) :=
  if h : 0 < s.sp.val then
    some (s.stack[s.sp.val - 1]'(by have := s.sp.isLt; omega), { s with sp := ⟨s.sp.val - 1, by have := s.sp.isLt; omega⟩ })
  else none

/-! ## Memory (R24, R32) -/

/-- What an unlisted address reads as: its reset content (R31, R33), the font table and then zeros. -/
def resetByte (font : Vector Byte fontSize) (a : Nat) : Byte :=
  if h : a < fontSize then font[a] else 0

/-- `M[a]` (R24). -/
def Memory.read (font : Vector Byte fontSize) (m : Memory) (a : Nat) : Byte :=
  match m with
  | [] => resetByte font a
  | (b, w) :: rest => if b = a then w else Memory.read font rest a

/-- A cell in front of a list, unless it holds what an unlisted address reads as. -/
def Memory.consCell (font : Vector Byte fontSize) (a : Nat) (v : Byte) (m : Memory) : Memory :=
  if v = resetByte font a then m else (a, v) :: m

/-- `M[a] <- v` in the canonical list. -/
def Memory.insert (font : Vector Byte fontSize) (m : Memory) (a : Nat) (v : Byte) : Memory :=
  match m with
  | [] => Memory.consCell font a v []
  | (b, w) :: rest =>
    if a < b then Memory.consCell font a v ((b, w) :: rest)
    else if a = b then Memory.consCell font a v rest
    else (b, w) :: Memory.insert font rest a v

/-- `M[a] <- v`; M has no cell above 0xFFF (R24), so nothing happens there. -/
def Memory.write (font : Vector Byte fontSize) (m : Memory) (a : Nat) (v : Byte) : Memory :=
  if a < memSize then Memory.insert font m a v else m

/-- The canonical form from an address on: every listed address is at least `lo`, rising, inside M,
and holds something else than its reset content. -/
def Memory.wfFrom (font : Vector Byte fontSize) (lo : Nat) (m : Memory) : Bool :=
  match m with
  | [] => true
  | (a, v) :: rest => decide (lo ≤ a) && decide (a < memSize) && decide (v ≠ resetByte font a) && Memory.wfFrom font (a + 1) rest

/-- The canonical form of a memory (log 10). -/
def Memory.wf (font : Vector Byte fontSize) (m : Memory) : Bool := Memory.wfFrom font 0 m

/-- `M[a]` of a state, without a check. -/
def State.byteAt (s : State) (a : Nat) : Byte := Memory.read s.params.fontTable s.mem a

/-- `M[a] <- v` of a state, without a check. -/
def State.setByte (s : State) (a : Nat) (v : Byte) : State :=
  { s with mem := Memory.write s.params.fontTable s.mem a v }

/-! ## The checked accesses of R34-R38 -/

/-- The check of one byte access (R34, R37): `none` where it is allowed. -/
def checkByte (p : Params) (kind : AccessKind) (a : Nat) : Option Fault :=
  if 0xFFF < a then some (.addressOutOfRange a)
  else if kind = .write ∧ a ≤ 0x04F ∧ p.fontWrite = .fault then some (.fontRegionWrite a)
  else none

/-- `check_block(a, n, kind)` (R38): every address in increasing order, the first failure. -/
def checkBlock (p : Params) (kind : AccessKind) (a : Nat) (n : Nat) : Option Fault :=
  match n with
  | 0 => none
  | n + 1 =>
    match checkByte p kind a with
    | some f => some f
    | none => checkBlock p kind (a + 1) n

/-- `MemRead(a, 1)` (R35). -/
def State.memRead (s : State) (a : Nat) : Except Fault Byte :=
  match checkByte s.params .read a with
  | some f => .error f
  | none => .ok (s.byteAt a)

/-- `MemWrite(a, 1, v)` (R36). -/
def State.memWrite (s : State) (a : Nat) (v : Byte) : Except Fault State :=
  match checkByte s.params .write a with
  | some f => .error f
  | none => .ok (s.setByte a v)

/-- The n bytes at a, a+1, ... -/
def State.bytesAt (s : State) (a : Nat) (n : Nat) : List Byte :=
  match n with
  | 0 => []
  | n + 1 => s.byteAt a :: s.bytesAt (a + 1) n

/-- The bytes of a list into a, a+1, ..., in order. -/
def State.setBytes (s : State) (a : Nat) (bs : List Byte) : State :=
  match bs with
  | [] => s
  | b :: rest => (s.setByte a b).setBytes (a + 1) rest

/-- A block read (R38): every address checked, then the bytes. -/
def State.loadBlock (s : State) (a n : Nat) : Except Fault (List Byte) :=
  match checkBlock s.params .read a n with
  | some f => .error f
  | none => .ok (s.bytesAt a n)

/-- A block write (R38): every address checked before the first byte is written. -/
def State.storeBlock (s : State) (a : Nat) (bs : List Byte) : Except Fault State :=
  match checkBlock s.params .write a bs.length with
  | some f => .error f
  | none => .ok (s.setBytes a bs)

/-! ## Fetch (R61) -/

/-- The alignment check of a fetch (R40, R61). -/
def checkFetchAlign (p : Params) (pc : Word) : Option Fault :=
  if pc.getLsbD 0 = true ∧ p.pcOdd = .fault then some (.misalignedFetch pc) else none

/-- `fetch()` (R61): the big-endian word at pc, or the first check that fails (R117). -/
def fetch (s : State) : Except Fault Word :=
  match checkFetchAlign s.params s.pc with
  | some f => .error f
  | none =>
    match s.memRead s.pc.toNat with
    | .error f => .error f
    | .ok hi =>
      match s.memRead (s.pc.toNat + 1) with
      | .error f => .error f
      | .ok lo => .ok (wordOfBytes hi lo)

/-- The state as `withFetchWord` needs it: no fault (R60), and a pc a fetch can read from (R61). -/
def fetchSlot (s : State) : State :=
  match fetch { s with fault := none } with
  | .ok _ => { s with fault := none }
  | .error _ => { s with fault := none, pc := 0x200#16 }

/-- UNKNOWN (R71): the word is skipped; the report is the step's return value (`HostOps.lean`, log 8). -/
def skipUnknown (s : State) : Result := .next s.advance

end Sys2Proof.Machine
end

