-- ==== Sys2Proof/Machine/Operands.lean ====
section
/-! DEFINITION. The operand forms of R53, R94 and R67: immediates, register operands, register ranges, the keypad. -/

namespace Sys2Proof.Machine

/-- `zext_16(NNN)` (R53): where an address immediate is written to pc or I. -/
def zextAddr (nnn : Addr) : Word := nnn.setWidth 16

/-- `zext_16(v0)` (R75). -/
def zextByte (b : Byte) : Word := b.setWidth 16

/-- The address `i` of a transfer, an unbounded number (R34, R94). -/
def State.base (s : State) : Nat := s.i.toNat

/-- The values of V0..V[x] (R99), the operand range of FX55. -/
def State.regsUpTo (s : State) (x : Reg) : List Byte := s.v.toList.take (x.val + 1)

/-- V[k], V[k+1], ... <- the bytes of a list (R100); a byte past VF has no register. -/
def State.setRegsFrom (s : State) (k : Nat) (bs : List Byte) : State :=
  match bs with
  | [] => s
  | b :: rest => (if h : k < 16 then s.setReg ⟨k, h⟩ b else s).setRegsFrom (k + 1) rest

/-- The bytes FX55 and FX65 move: X + 1 (R53, R94). -/
def blockCount (x : Reg) : Nat := x.val + 1

/-- `(i + n) mod 65536`, the post-increment of FX55 and FX65 (R94, R99). -/
def indexPlus (i : Word) (n : Nat) : Word := BitVec.ofNat 16 (i.toNat + n)

/-- The decimal digits of a byte, hundreds first (R98). -/
def decimalDigits (b : Byte) : List Byte :=
  [BitVec.ofNat 8 (b.toNat / 100), BitVec.ofNat 8 (b.toNat / 10 % 10), BitVec.ofNat 8 (b.toNat % 10)]

/-- `vx * 5` (R97): 0 .. 1275, not reduced to the low nibble. -/
def glyphAddress (b : Byte) : Word := BitVec.ofNat 16 (b.toNat * 5)

/-- `KEY[k] = 1` (R28). -/
def State.keyDown (s : State) (k : Nat) : Bool := s.key.getLsbD k

/-- `P = { k in 0..15 | KEY[k] = 1 }` (R110), in increasing order. -/
def State.pressedKeys (s : State) : List Nat := (List.range 16).filter s.keyDown

/-- `draw_key(P)` for a non-empty P given as its first key and the rest (R110): under `lowest` the least key,
under `any` the free choice `c` among all of them. With one key there is nothing to choose. -/
def drawKey (sel : KeySelect) (c : Nat) (k : Nat) (more : List Nat) : Nat :=
  match sel, more with
  | .lowest, _ => k
  | .any, [] => k
  | .any, k' :: rest => (k :: k' :: rest).getD (c % (rest.length + 2)) k

end Sys2Proof.Machine
end

