-- ==== Sys2Proof/Machine/Flags.lean ====
section
/-! DEFINITION. The results and flags of the ALU (R81) and the order of the two writes (R68). The only flag is VF (R17, R18). -/

namespace Sys2Proof.Machine

/-- A flag as VF holds it: 1 or 0. -/
def flagByte (c : Bool) : Byte := if c then 1 else 0

/-- Carry out of an 8-bit addition (R88): 1 when the exact sum exceeds 255. -/
def carryFlag (a b : Byte) : Byte := flagByte (decide (255 < a.toNat + b.toNat))

/-- `(a + b) mod 256` (R84, R88). -/
def sumByte (a b : Byte) : Byte := BitVec.ofNat 8 (a.toNat + b.toNat)

/-- "No borrow" of `a - b` (R81, R89, R90): 1 when `a >= b`. -/
def noBorrowFlag (a b : Byte) : Byte := flagByte (decide (b.toNat ≤ a.toNat))

/-- `(a - b) mod 256` (R89, R90). -/
def diffByte (a b : Byte) : Byte := BitVec.ofInt 8 ((a.toNat : Int) - (b.toNat : Int))

/-- The bit a right shift shifts out, bit 0 (R91). -/
def shrFlag (a : Byte) : Byte := flagByte (a.getLsbD 0)

/-- `a >> 1` (R91). -/
def shrByte (a : Byte) : Byte := BitVec.ofNat 8 (a.toNat / 2)

/-- The bit a left shift shifts out, bit 7 (R92). -/
def shlFlag (a : Byte) : Byte := flagByte (a.getLsbD 7)

/-- `(a << 1) mod 256` (R92). -/
def shlByte (a : Byte) : Byte := BitVec.ofNat 8 (a.toNat * 2)

/-- Index overflow (R96): 1 when the exact sum exceeds 0xFFF. -/
def indexFlag (i : Word) (b : Byte) : Byte := flagByte (decide (0xFFF < i.toNat + b.toNat))

/-- `write_fr(X, flag, result)` (R68): the two writes in the order of `VF_WRITE_ORDER`. -/
def State.writeFR (s : State) (x : Reg) (flag result : Byte) : State :=
  match s.params.vfWriteOrder with
  | .flagThenResult => (s.setReg regF flag).setReg x result
  | .resultThenFlag => (s.setReg x result).setReg regF flag

end Sys2Proof.Machine
end

