-- ==== Sys2Proof/Machine/Alu.lean ====
section
/-! DEFINITION. The ALU instructions: loads, arithmetic, logic, shifts, random (R81-R93). None can raise a fault. -/

namespace Sys2Proof.Machine

/-- `V[x] <- b; pc <- pc + 2`: an ALU instruction that writes no flag. -/
def writeResult (x : Reg) (b : Byte) (s : State) : Result := .next (s.setReg x b).advance

/-- `write_fr(x, flag, b); pc <- pc + 2`: an ALU instruction that writes VF too (R68). -/
def writeFlagged (x : Reg) (flag b : Byte) (s : State) : Result := .next (s.writeFR x flag b).advance

/-- `6XNN` LD Vx, byte (R82). -/
def execLdByte (x : Reg) (nn : Byte) (s : State) : Result := writeResult x nn s

/-- `8XY0` LD Vx, Vy (R83). -/
def execLdReg (x y : Reg) (s : State) : Result := writeResult x (s.reg y) s

/-- `7XNN` ADD Vx, byte (R84): no flag. -/
def execAddByte (x : Reg) (nn : Byte) (s : State) : Result := writeResult x (sumByte (s.reg x) nn) s

/-- `8XY1` OR Vx, Vy (R85). -/
def execOrReg (x y : Reg) (s : State) : Result := writeResult x (s.reg x ||| s.reg y) s

/-- `8XY2` AND Vx, Vy (R86). -/
def execAndReg (x y : Reg) (s : State) : Result := writeResult x (s.reg x &&& s.reg y) s

/-- `8XY3` XOR Vx, Vy (R87). -/
def execXorReg (x y : Reg) (s : State) : Result := writeResult x (s.reg x ^^^ s.reg y) s

/-- `8XY4` ADD Vx, Vy (R88): VF <- carry. -/
def execAddReg (x y : Reg) (s : State) : Result :=
  writeFlagged x (carryFlag (s.reg x) (s.reg y)) (sumByte (s.reg x) (s.reg y)) s

/-- `8XY5` SUB Vx, Vy (R89): VF <- no borrow. -/
def execSub (x y : Reg) (s : State) : Result :=
  writeFlagged x (noBorrowFlag (s.reg x) (s.reg y)) (diffByte (s.reg x) (s.reg y)) s

/-- `8XY7` SUBN Vx, Vy (R90): Vy - Vx into Vx, VF <- no borrow. -/
def execSubn (x y : Reg) (s : State) : Result :=
  writeFlagged x (noBorrowFlag (s.reg y) (s.reg x)) (diffByte (s.reg y) (s.reg x)) s

/-- `8XY6` SHR Vx, Vy (R91): the source is Vx; Vy is neither read nor written. -/
def execShr (x _y : Reg) (s : State) : Result := writeFlagged x (shrFlag (s.reg x)) (shrByte (s.reg x)) s

/-- `8XYE` SHL Vx, Vy (R92): the source is Vx; Vy is neither read nor written. -/
def execShl (x _y : Reg) (s : State) : Result := writeFlagged x (shlFlag (s.reg x)) (shlByte (s.reg x)) s

/-- `CXNN` RND Vx, byte (R93) with the step's random input `r`. -/
def rndWith (r : Byte) (x : Reg) (nn : Byte) (s : State) : Result := writeResult x (r &&& nn) s

/-- `CXNN` RND Vx, byte (R93): the random input is the next free byte (R70; log 4). -/
def execRnd (x : Reg) (nn : Byte) (s : State) : Result := rndWith (Config.randomByte s.draws) x nn s.countDraw

end Sys2Proof.Machine
end

