-- ==== Sys2Proof/Machine/Control.lean ====
section
/-! DEFINITION. Control transfer: jumps, call, return and the register skips (R72-R80). -/

namespace Sys2Proof.Machine

/-- `00EE` RET (R72): the popped value is the return address, no increment. -/
def execRet (s : State) : Result :=
  match s.pop with
  | none => raise (.stackUnderflow s.pc) s
  | some (target, t) => .next (t.setPc target)

/-- `1NNN` JP addr (R73). -/
def execJp (nnn : Addr) (s : State) : Result := .next (s.setPc (zextAddr nnn))

/-- `2NNN` CALL addr (R74): pushes pc + 2. -/
def execCall (nnn : Addr) (s : State) : Result :=
  match s.push (s.pc + 2#16) with
  | none => raise (.stackOverflow s.pc) s
  | some t => .next (t.setPc (zextAddr nnn))

/-- `BNNN` JP V0, addr (R75): the offset register is always V0; the sum is not reduced mod 4096. -/
def execJpV0 (nnn : Addr) (s : State) : Result := .next (s.setPc (zextAddr nnn + zextByte (s.reg reg0)))

/-- `3XNN` SE Vx, byte (R76). -/
def execSeByte (x : Reg) (nn : Byte) (s : State) : Result := .next (s.skipIf (s.reg x == nn))

/-- `4XNN` SNE Vx, byte (R77). -/
def execSneByte (x : Reg) (nn : Byte) (s : State) : Result := .next (s.skipIf (s.reg x != nn))

/-- `5XY0` SE Vx, Vy (R78). -/
def execSeReg (x y : Reg) (s : State) : Result := .next (s.skipIf (s.reg x == s.reg y))

/-- `9XY0` SNE Vx, Vy (R79). -/
def execSneReg (x y : Reg) (s : State) : Result := .next (s.skipIf (s.reg x != s.reg y))

end Sys2Proof.Machine
end

