-- ==== Sys2Proof/Machine/Display.lean ====
section
/-! DEFINITION. The sprite-drawing engine and the display instructions (R101-R106). -/

namespace Sys2Proof.Machine

/-- `FB[n]`, n = x + 64*y (R26, R101); there is no pixel past 2047. -/
def pixelAt (fb : FrameBuffer) (n : Nat) : Bool :=
  if h : n / fbW < fbH then (fb[n / fbW]).getLsbD (n % fbW) else false

/-- `FB[n] <- FB[n] XOR 1` (R104). -/
def flipPixel (fb : FrameBuffer) (n : Nat) : FrameBuffer :=
  if h : n / fbW < fbH then fb.set (n / fbW) (fb[n / fbW] ^^^ (1#64 <<< (n % fbW))) h else fb

/-- The framebuffer with every pixel 0 (R103). -/
def blankScreen : FrameBuffer := Vector.replicate fbH 0

/-- `FB[n]` of a state (R11). -/
def State.pixel (s : State) (n : Nat) : Bool := pixelAt s.fb n

/-- A framebuffer being drawn on, and whether a collision has occurred. -/
structure Canvas where
  fb : FrameBuffer
  hit : Bool
deriving DecidableEq, Repr

/-- `if FB[n] = 1: hit <- 1`, then `FB[n] <- FB[n] XOR 1` (R104: tested before the XOR). -/
def Canvas.plot (cv : Canvas) (n : Nat) : Canvas where
  fb := flipPixel cv.fb n
  hit := cv.hit || pixelAt cv.fb n

/-- The framebuffer index of column offset c and row offset r of a sprite at (x0, y0), or nothing where it is clipped (R102). -/
def pixelIndex (edge : DrawEdge) (x0 y0 c r : Nat) : Option Nat :=
  match edge with
  | .wrap => some ((x0 + c) % fbW + fbW * ((y0 + r) % fbH))
  | .clip =>
    if x0 % fbW + c < fbW ∧ y0 % fbH + r < fbH then some (x0 % fbW + c + fbW * (y0 % fbH + r)) else none

/-- Bit 7 is the leftmost pixel (R101): is the pixel at column offset c set in a sprite row. -/
def spriteBit (b : Byte) (c : Nat) : Bool := b.getLsbD (7 - c)

/-- The framebuffer indexes the set bits of sprite row r address, left to right (R104). -/
def rowPixels (edge : DrawEdge) (x0 y0 r : Nat) (b : Byte) : List Nat :=
  (List.range 8).filterMap (fun c => if spriteBit b c then pixelIndex edge x0 y0 c r else none)

/-- The framebuffer indexes a sprite addresses, row by row from row r (R104). -/
def spritePixels (edge : DrawEdge) (x0 y0 r : Nat) (rows : List Byte) : List Nat :=
  match rows with
  | [] => []
  | b :: rest => rowPixels edge x0 y0 r b ++ spritePixels edge x0 y0 (r + 1) rest

/-- Plot every index of a list, in order. -/
def Canvas.plotAll (cv : Canvas) (ns : List Nat) : Canvas :=
  match ns with
  | [] => cv
  | n :: rest => (cv.plot n).plotAll rest

/-- The sprite-drawing engine (R104): XOR the rows into the framebuffer, and report a collision. -/
def drawSprite (edge : DrawEdge) (x0 y0 : Nat) (rows : List Byte) (fb : FrameBuffer) : Canvas :=
  Canvas.plotAll ⟨fb, false⟩ (spritePixels edge x0 y0 0 rows)

/-- The write of VF after a draw (R105): 1 on a collision; else 0 or the old VF, as `DRAW_VF_CLEAR` says. -/
def State.writeCollision (s : State) (hit : Bool) : State :=
  match s.params.drawVfClear, hit with
  | true, _ => s.setReg regF (flagByte hit)
  | false, true => s.setReg regF 1
  | false, false => s

/-- `00E0` CLS (R103). -/
def execCls (s : State) : Result := .next (s.setDisplay blankScreen).advance

/-- The state after the sprite `rows` is drawn at (V[x], V[y]) (R104): framebuffer, VF, redraw. -/
def State.draw (s : State) (x y : Reg) (rows : List Byte) : State :=
  (s.setDisplay (drawSprite s.params.drawEdge (s.reg x).toNat (s.reg y).toNat rows s.fb).fb).writeCollision
    (drawSprite s.params.drawEdge (s.reg x).toNat (s.reg y).toNat rows s.fb).hit

/-- `DXYN` DRW Vx, Vy, nibble (R104): N rows from I, drawn at (Vx, Vy); I is not changed. -/
def execDrw (x y : Reg) (n : Nat) (s : State) : Result :=
  match s.loadBlock s.base n with
  | .error f => raise f s
  | .ok rows => .next (s.draw x y rows).advance

end Sys2Proof.Machine
end

