-- ==== Sys2Proof/Machine/KeyTimer.lean ====
section
/-! DEFINITION. The keypad and timer instructions (R107-R113). -/

namespace Sys2Proof.Machine

/-- A key-test skip (R107): vx above 0x0F raises, else skip when the key's state is `want`. -/
def keyTest (want : Bool) (x : Reg) (s : State) : Result :=
  if 0x0F < (s.reg x).toNat then raise (.keyIndexOutOfRange (s.reg x)) s
  else .next (s.skipIf (s.keyDown (s.reg x).toNat == want))

/-- `EX9E` SKP Vx (R108). -/
def execSkp (x : Reg) (s : State) : Result := keyTest true x s

/-- `EXA1` SKNP Vx (R109). -/
def execSknp (x : Reg) (s : State) : Result := keyTest false x s

/-- `FX0A` LD Vx, K (R110) with the step's choice `c`: with no key pressed nothing changes at all and the step
is Waiting; else the chosen key goes to Vx. -/
def ldKeyWith (c : Nat) (x : Reg) (s : State) : Result :=
  match s.pressedKeys with
  | [] => .next s
  | k :: more => .next (s.countDraw.setReg x (BitVec.ofNat 8 (drawKey s.params.keySelect c k more))).advance

/-- `FX0A` LD Vx, K (R110): the choice is the next free one (log 5). -/
def execLdVxKey (x : Reg) (s : State) : Result := ldKeyWith (Config.keyChoice s.draws) x s

/-- `FX07` LD Vx, DT (R111). -/
def execLdVxDt (x : Reg) (s : State) : Result := .next (s.setReg x s.dt).advance

/-- `FX15` LD DT, Vx (R112). -/
def execLdDtVx (x : Reg) (s : State) : Result := .next (s.setDelay (s.reg x)).advance

/-- `FX18` LD ST, Vx (R113): no sound event. -/
def execLdStVx (x : Reg) (s : State) : Result := .next (s.setSound (s.reg x)).advance

end Sys2Proof.Machine
end

