-- ==== Sys2Proof/Machine/Transfer.lean ====
section
/-! DEFINITION. The index register and the memory transfers through it (R94-R100). -/

namespace Sys2Proof.Machine

/-- `ANNN` LD I, addr (R95). -/
def execLdI (nnn : Addr) (s : State) : Result := .next (s.setIndex (zextAddr nnn)).advance

/-- `FX1E` ADD I, Vx (R96): VF <- (i + vx > 0xFFF), written in both cases; I <- (i + vx) mod 65536. -/
def execAddI (x : Reg) (s : State) : Result :=
  .next ((s.setReg regF (indexFlag s.i (s.reg x))).setIndex (indexPlus s.i (s.reg x).toNat)).advance

/-- `FX29` LD F, Vx (R97). -/
def execLdFont (x : Reg) (s : State) : Result := .next (s.setIndex (glyphAddress (s.reg x))).advance

/-- `FX33` LD B, Vx (R98): I is not changed. -/
def execLdBcd (x : Reg) (s : State) : Result :=
  match s.storeBlock s.base (decimalDigits (s.reg x)) with
  | .error f => raise f s
  | .ok t => .next t.advance

/-- `FX55` LD [I], Vx (R99): stores V0..Vx, then I <- (i + X + 1) mod 65536. -/
def execStoreRegs (x : Reg) (s : State) : Result :=
  match s.storeBlock s.base (s.regsUpTo x) with
  | .error f => raise f s
  | .ok t => .next (t.setIndex (indexPlus s.i (blockCount x))).advance

/-- `FX65` LD Vx, [I] (R100): loads V0..Vx, then I <- (i + X + 1) mod 65536. -/
def execLoadRegs (x : Reg) (s : State) : Result :=
  match s.loadBlock s.base (blockCount x) with
  | .error f => raise f s
  | .ok bs => .next ((s.setRegsFrom 0 bs).setIndex (indexPlus s.i (blockCount x))).advance

end Sys2Proof.Machine
end

