-- ==== Sys2Proof/Machine/Step.lean ====
section
/-! DEFINITION. The step of R63, and how a word is placed where the next step fetches. -/

namespace Sys2Proof.Machine

/-- `step()` (R63): a faulted core changes nothing (R60); else fetch (R61), decode (R62), and either execute
or skip an UNKNOWN word (R71). A raise of the fetch ends the step (R118). The step's return value (R64) is
`stepReturn` of `HostOps.lean`. -/
def step (s : State) : Host.Outcome State Fault Refusal :=
  match s.fault with
  | some _ => .next s
  | none =>
    match fetch s with
    | .error f => raise f s
    | .ok w =>
      match decode w with
      | .error _ => skipUnknown s
      | .ok i => exec i s

/-- The state with the word `tableWord nbits w` where the next step fetches (log 12): the two bytes at pc, with the
fault status cleared, and pc moved to 0x200 if a fetch at pc would raise whatever memory holds. -/
def State.withFetchWord (s : State) (nbits w : Nat) : State :=
  fetchSlot s |>.setByte (fetchSlot s).pc.toNat (hiByte (tableWord nbits w))
    |>.setByte ((fetchSlot s).pc.toNat + 1) (loByte (tableWord nbits w))

end Sys2Proof.Machine
end

