-- ==== Sys2Proof/Machine/HostOps.lean ====
section
/-! DEFINITION. The host's ports (R125): load, tick, set_keys, clear_redraw, read_display, read_fault, the step with
its return value (R64), and runs as sequences of host operations (R126, R137). `initialize` is `initCore` of Ops. -/

namespace Sys2Proof.Machine

/-! ## The single ports -/

/-- The reports and load errors of R115. -/
inductive Report where
  /-- Reported by a step that skips an UNKNOWN word. -/
  | unknownOpcode
  /-- Returned by `load` of more than 3584 bytes. -/
  | imageTooLarge
  /-- The host's loader's own; the core never raises it. -/
  | sourceUnavailable
deriving DecidableEq, Repr

/-- The codes of R115. -/
def reportCode (r : Report) : Nat :=
  match r with
  | .unknownOpcode => 0x20
  | .imageTooLarge => 0x10
  | .sourceUnavailable => 0x11

/-- The codes of R114. -/
def faultCode (f : Fault) : Nat :=
  match f with
  | .stackOverflow _ => 1
  | .stackUnderflow _ => 2
  | .addressOutOfRange _ => 3
  | .misalignedFetch _ => 4
  | .keyIndexOutOfRange _ => 5
  | .fontRegionWrite _ => 6

/-- `load(b)` (R132): copies the image to 0x200 and on, or reports `ImageTooLarge` and writes nothing. -/
def load (image : List Byte) (s : State) : Except Report State :=
  if maxImage < image.length then .error .imageTooLarge else .ok (s.setBytes progBase image)

/-- One timer of a tick: `if T > 0: T <- T - 1` (R122). -/
def countDown (t : Byte) : Byte := if t = 0 then 0 else t - 1

/-- The tick signals `SoundEvent` exactly when it takes ST from 1 to 0 (R122, R123). -/
def soundEvent (s : State) : Bool := s.st == 1

/-- `tick()` (R122): both timers count down, saturating at 0; independent of `fault` (R119). -/
def tick (s : State) : State := { s with dt := countDown s.dt, st := countDown s.st }

/-- `set_keys(k)`: `KEY <- k` (R28, R125). -/
def setKeys (k : Keypad) (s : State) : State := { s with key := k }

/-- `clear_redraw`: `redraw <- 0` (R27, R125). -/
def clearRedraw (s : State) : State := { s with redraw := false }

/-- `read_display` (R125): FB and redraw. -/
def readDisplay (s : State) : FrameBuffer × Bool := (s.fb, s.redraw)

/-- `read_fault` (R125). -/
def readFault (s : State) : Option Fault := s.fault

/-! ## The step port -/

/-- The four outcomes of a step (R64). -/
inductive StepReturn where
  | executed
  | waiting
  | reported (w a : Word)
  | faulted (f : Fault)
deriving DecidableEq, Repr

/-- FX0A with no key pressed (R63, R110). -/
def waits (i : Instr) (s : State) : Bool :=
  match i with
  | .ldVxKey _ => s.pressedKeys.isEmpty
  | _ => false

/-- The return value of an instruction that answered the state `t` (R63, R64). -/
def returnAfter (i : Instr) (s t : State) : StepReturn :=
  match t.fault with
  | some f => .faulted f
  | none => if waits i s then .waiting else .executed

/-- What `step` returns to the host (R63, R64), `none` only if the model itself gave no next state. -/
def stepReturn (s : State) : Option StepReturn :=
  match s.fault with
  | some f => some (.faulted f)
  | none =>
    match fetch s with
    | .error f => some (.faulted f)
    | .ok w =>
      match decode w with
      | .error _ => some (.reported w s.pc)
      | .ok i =>
        match exec i s with
        | .next t => some (returnAfter i s t)
        | .fault _ => none
        | .refused _ => none

/-- The state after `step`; a step of this model always answers a next state. -/
def stepState (s : State) : State :=
  match step s with
  | .next t => t
  | .fault _ => s
  | .refused _ => s

/-! ## Runs -/

/-- The host operations that change state (R125). -/
inductive HostOp where
  | init
  | load (image : List Byte)
  | step
  | tick
  | setKeys (k : Keypad)
  | clearRedraw
deriving DecidableEq, Repr

/-- What an operation returns to the host (R125). -/
inductive HostReturn where
  | nothing
  | loaded
  | loadError (r : Report)
  | stepped (r : Option StepReturn)
  | sound
deriving DecidableEq, Repr

/-- The state after a host operation; each is atomic (R42). -/
def hostState (op : HostOp) (s : State) : State :=
  match op with
  | .init => initCore s
  | .load image =>
    match load image s with
    | .ok t => t
    | .error _ => s
  | .step => stepState s
  | .tick => tick s
  | .setKeys k => setKeys k s
  | .clearRedraw => clearRedraw s

/-- What a host operation returns. -/
def hostReturn (op : HostOp) (s : State) : HostReturn :=
  match op with
  | .init => .nothing
  | .load image =>
    match load image s with
    | .ok _ => .loaded
    | .error r => .loadError r
  | .step => .stepped (stepReturn s)
  | .tick => if soundEvent s then .sound else .nothing
  | .setKeys _ => .nothing
  | .clearRedraw => .nothing

/-- The state after a sequence of host operations. -/
def hostRun (ops : List HostOp) (s : State) : State :=
  match ops with
  | [] => s
  | op :: rest => hostRun rest (hostState op s)

/-- The rest of a run after its initialize (R126): `load` is open until the first load or the first step; a second
initialize neither opens nor closes it (log 9); ticks, keypad updates and redraw clears stand anywhere. -/
def legalAfter (mayLoad : Bool) (ops : List HostOp) : Bool :=
  match ops with
  | [] => true
  | .load _ :: rest => mayLoad && legalAfter false rest
  | .step :: rest => legalAfter false rest
  | .init :: rest => legalAfter mayLoad rest
  | .tick :: rest => legalAfter mayLoad rest
  | .setKeys _ :: rest => legalAfter mayLoad rest
  | .clearRedraw :: rest => legalAfter mayLoad rest

/-- A run the spec speaks of (R126, R137): initialize first; load at most once, after initialize and before the first
step; everything else in any order and number (log 9). -/
def legalRun (ops : List HostOp) : Bool :=
  match ops with
  | .init :: rest => legalAfter true rest
  | [] | .load _ :: _ | .step :: _ | .tick :: _ | .setKeys _ :: _ | .clearRedraw :: _ => false

end Sys2Proof.Machine
end

