-- ==== Sys2Proof/Safety.lean ====
section
/-! DEFINITION. What claims are said in: what an operation leaves unchanged, the invariants of the state,
and the end states of R137. -/

namespace Sys2Proof.Machine

/-! ## Frames -/

/-- The pieces of state an operation can change, but the V registers and pc. -/
inductive Piece where
  | index | stack | delay | sound | memory | pixels | redraw | keypad | fault | draws
deriving DecidableEq, Repr

/-- The piece has the same value in both states. Memory is compared byte by byte, through the read of one byte. -/
def sameIn (p : Piece) (s t : State) : Prop :=
  match p with
  | .index => t.i = s.i
  | .stack => t.sp = s.sp ∧ ∀ k : Fin stackDepth, t.stack[k] = s.stack[k]
  | .delay => t.dt = s.dt
  | .sound => t.st = s.st
  | .memory => ∀ a : Nat, t.byteAt a = s.byteAt a
  | .pixels => ∀ n : Nat, t.pixel n = s.pixel n
  | .redraw => t.redraw = s.redraw
  | .keypad => ∀ k : Nat, t.keyDown k = s.keyDown k
  | .fault => t.fault = s.fault
  | .draws => t.draws = s.draws

/-- Every register but those of `regs`, every piece but those of `pieces`, and the parameters are unchanged; pc may change. -/
def KeepsAllBut (regs : List Reg) (pieces : List Piece) (s t : State) : Prop :=
  (∀ r : Reg, r ∉ regs → t.reg r = s.reg r) ∧ (∀ p : Piece, p ∉ pieces → sameIn p s t) ∧ t.params = s.params

/-- Everything but the fault status is unchanged, pc included: a precise fault (R118). -/
def FaultsWith (f : Fault) (s t : State) : Prop :=
  t.fault = some f ∧ t.pc = s.pc ∧ KeepsAllBut [] [.fault] s t

/-- The byte address lies in the block of n bytes at `base`. -/
def inBlock (base n a : Nat) : Prop := base ≤ a ∧ a < base + n

/-- Every byte outside the block of n bytes at `base` reads as before. -/
def MemoryKeptOutside (base n : Nat) (s t : State) : Prop := ∀ a : Nat, ¬ inBlock base n a → t.byteAt a = s.byteAt a

/-- A block of n bytes at `base` that a write may touch: inside M, and outside the font unless the policy allows it (R36). -/
def Writable (base n : Nat) (s : State) : Prop :=
  base + n ≤ memSize ∧ (fontSize ≤ base ∨ s.params.fontWrite = .allow)

/-- A block of n bytes at `base` that a read may touch: empty, or inside M (R34, R38). -/
def Readable (base n : Nat) : Prop := n = 0 ∨ base + n ≤ memSize

/-- How a non-empty block write of n bytes at `base` faults (R38): in a guarded font at its first byte,
past the end of M at the first address above 0xFFF. -/
def WriteFaults (base n : Nat) (s : State) (answer : State → Prop) : Prop :=
  (base < fontSize → s.params.fontWrite = .fault → ∃ t, answer t ∧ FaultsWith (.fontRegionWrite base) s t) ∧
  (memSize < base + n → ∃ t, answer t ∧ FaultsWith (.addressOutOfRange (max base memSize)) s t)

/-- How a non-empty block read of n bytes at `base` faults (R38): at the first address above 0xFFF. -/
def ReadFaults (base n : Nat) (s : State) (answer : State → Prop) : Prop :=
  0 < n → memSize < base + n → ∃ t, answer t ∧ FaultsWith (.addressOutOfRange (max base memSize)) s t

/-- The effect of an ALU instruction with a flag (R68): result and flag in their registers when they differ;
when the destination is VF, the later of the two writes stands. Nothing else changes but pc. -/
def FlagAndResult (x : Reg) (flag result : Nat) (s t : State) : Prop :=
  (x ≠ regF → (t.reg x).toNat = result ∧ (t.reg regF).toNat = flag) ∧
  (x = regF → s.params.vfWriteOrder = .flagThenResult → (t.reg regF).toNat = result) ∧
  (x = regF → s.params.vfWriteOrder = .resultThenFlag → (t.reg regF).toNat = flag) ∧
  t.pc = s.pc + 2#16 ∧ KeepsAllBut [x, regF] [] s t

/-! ## Sprites (R101, R102) -/

/-- The sprite of n rows at I has a set bit at row r, column c (bit 7 is the leftmost, R101). -/
def SpriteSets (s : State) (n r c : Nat) : Prop :=
  r < n ∧ c < 8 ∧ (s.byteAt (s.i.toNat + r)).getLsbD (7 - c) = true

/-- Column offset c, row offset r of a sprite at (x0, y0) is framebuffer pixel p (R102). -/
def LandsOn (edge : DrawEdge) (x0 y0 c r p : Nat) : Prop :=
  match edge with
  | .wrap => p = (x0 + c) % 64 + 64 * ((y0 + r) % 32)
  | .clip => x0 % 64 + c < 64 ∧ y0 % 32 + r < 32 ∧ p = (x0 % 64 + c) + 64 * (y0 % 32 + r)

/-- A set bit of the sprite that DXYN draws lands on pixel p. -/
def SpriteCovers (s : State) (x y : Reg) (n p : Nat) : Prop :=
  ∃ r c, SpriteSets s n r c ∧ LandsOn s.params.drawEdge (s.reg x).toNat (s.reg y).toNat c r p

/-! ## Who writes what -/

/-- The registers an instruction names as a destination (R16). -/
def destinations (i : Instr) (r : Reg) : Prop :=
  match i with
  | .ldByte x _ | .addByte x _ | .ldReg x _ | .orReg x _ | .andReg x _ | .xorReg x _ | .addReg x _ | .sub x _ | .shr x _
  | .subn x _ | .shl x _ | .rnd x _ | .ldVxDt x | .ldVxKey x => r = x
  | .loadRegs x => r ≤ x
  | .cls | .ret | .jp _ | .call _ | .seByte _ _ | .sneByte _ _ | .seReg _ _ | .sneReg _ _ | .ldI _ | .jpV0 _ | .drw _ _ _
  | .skp _ | .sknp _ | .ldDtVx _ | .ldStVx _ | .addI _ | .ldFont _ | .ldBcd _ | .storeRegs _ => False

/-- The instructions that write VF as a flag (R17). -/
def writesFlag (i : Instr) : Bool :=
  match i with
  | .addReg _ _ | .sub _ _ | .shr _ _ | .subn _ _ | .shl _ _ | .addI _ | .drw _ _ _ => true
  | .cls | .ret | .jp _ | .call _ | .seByte _ _ | .sneByte _ _ | .seReg _ _ | .ldByte _ _ | .addByte _ _ | .ldReg _ _
  | .orReg _ _ | .andReg _ _ | .xorReg _ _ | .sneReg _ _ | .ldI _ | .jpV0 _ | .rnd _ _ | .skp _ | .sknp _ | .ldVxDt _
  | .ldVxKey _ | .ldDtVx _ | .ldStVx _ | .ldFont _ | .ldBcd _ | .storeRegs _ | .loadRegs _ => false

/-- The skip of R65: pc + 4 when the condition holds, else pc + 2. -/
def SkipsWhen (c : Prop) (s t : State) : Prop := (c → t.pc = s.pc + 4#16) ∧ (¬ c → t.pc = s.pc + 2#16)

/-- The row of R65's table for an instruction that did not fault: the next pc. -/
def NextPc (i : Instr) (s t : State) : Prop :=
  match i with
  | .jp nnn => t.pc.toNat = nnn.toNat
  | .call nnn => t.pc.toNat = nnn.toNat
  | .ret => ∀ k : Fin stackDepth, k.val + 1 = s.sp.val → t.pc = s.stack[k]
  | .jpV0 nnn => t.pc.toNat = nnn.toNat + (s.reg reg0).toNat
  | .seByte x nn => SkipsWhen (s.reg x = nn) s t
  | .sneByte x nn => SkipsWhen (s.reg x ≠ nn) s t
  | .seReg x y => SkipsWhen (s.reg x = s.reg y) s t
  | .sneReg x y => SkipsWhen (s.reg x ≠ s.reg y) s t
  | .skp x => SkipsWhen (s.keyDown (s.reg x).toNat = true) s t
  | .sknp x => SkipsWhen (s.keyDown (s.reg x).toNat = false) s t
  | .ldVxKey _ => ((∀ k, s.keyDown k = false) → t.pc = s.pc) ∧ (∀ k, s.keyDown k = true → t.pc = s.pc + 2#16)
  | .cls | .ldByte _ _ | .addByte _ _ | .ldReg _ _ | .orReg _ _ | .andReg _ _ | .xorReg _ _ | .addReg _ _ | .sub _ _
  | .shr _ _ | .subn _ _ | .shl _ _ | .ldI _ | .rnd _ _ | .drw _ _ _ | .ldVxDt _ | .ldDtVx _ | .ldStVx _ | .addI _
  | .ldFont _ | .ldBcd _ | .storeRegs _ | .loadRegs _ => t.pc = s.pc + 2#16

/-- A fetch at pc succeeds (R61). -/
def Fetchable (s : State) : Prop := s.pc.toNat ≤ 0xFFE ∧ (s.pc.toNat % 2 = 0 ∨ s.params.pcOdd = .fetch)

/-- The big-endian word at pc (R39). -/
def wordAtPc (s : State) : Word := wordOfBytes (s.byteAt s.pc.toNat) (s.byteAt (s.pc.toNat + 1))

/-! ## Invariants -/

/-- pc is an address a step can have produced (R66): at most NNN + V0. -/
def PcBounded (s : State) : Prop := s.pc.toNat ≤ 0x10FE

/-- Every return address is one a 2NNN can have pushed (R72, R74): at most 0x1000. -/
def StackBounded (s : State) : Prop := ∀ k : Fin stackDepth, (s.stack[k]).toNat ≤ 0x1000

/-- Memory is in its canonical form (log 10). -/
def MemoryCanonical (s : State) : Prop := Memory.wf s.params.fontTable s.mem = true

/-- The font region holds the font table (R33, R37). -/
def FontIntact (s : State) : Prop := ∀ k : Fin fontSize, s.byteAt k.val = s.params.fontTable[k]

/-- A recorded fault carries the info its row of R114 names. -/
def FaultInfoRight (s : State) : Prop :=
  match s.fault with
  | none => True
  | some (.stackOverflow a) => a = s.pc ∧ s.sp.val = stackDepth
  | some (.stackUnderflow a) => a = s.pc ∧ s.sp.val = 0
  | some (.addressOutOfRange a) => 0xFFF < a
  | some (.misalignedFetch a) => a = s.pc ∧ a.toNat % 2 = 1 ∧ s.params.pcOdd = .fault
  | some (.keyIndexOutOfRange b) => 0x0F < b.toNat ∧ ∃ r : Reg, s.reg r = b
  | some (.fontRegionWrite a) => a ≤ 0x04F ∧ s.params.fontWrite = .fault

/-- What every step keeps, whatever the state it starts from. -/
structure Inv (s : State) : Prop where
  pcBounded : PcBounded s
  stackBounded : StackBounded s
  memoryCanonical : MemoryCanonical s
  fontIntact : s.params.fontWrite = .fault → FontIntact s
  faultInfo : FaultInfoRight s

/-! ## Safe runs and end states (R137) -/

/-- The core has not faulted. -/
def Running (s : State) : Prop := s.fault = none

/-- The end state (a) of R137. -/
def Faulted (s : State) : Prop := s.fault ≠ none

/-- The end state (b) of R137: the word at pc is a 1NNN that jumps to pc itself. -/
def Idle (s : State) : Prop := s.fault = none ∧ s.pc.toNat ≤ 0xFFE ∧ wordAtPc s = (0x1000#16 ||| s.pc)

end Sys2Proof.Machine
end

