-- ==== Sys2Proof/Certificates/Slice0/Obligations.lean ====
section
/-! DEFINITION. The statements for the provers. Each docstring names the rules of the spec it formalises. -/

open Sys2Proof Sys2Proof.Machine

/-! ## Reset and the host's ports -/

/-- R31, R130, R131 (the values D22 of the spec decides included): after initialize, called in any state, every piece of
state has its reset value; the parameters stay (log 1). `State.reset` is such a state. -/
def Obligations.InitializeResetsEverything : Prop :=
  (∀ s : State,
    (∀ r : Reg, (initCore s).reg r = 0) ∧ (initCore s).i = 0 ∧ (initCore s).pc = 0x200#16 ∧
    (∀ k : Fin stackDepth, (initCore s).stack[k] = 0) ∧ (initCore s).sp.val = 0 ∧
    (initCore s).dt = 0 ∧ (initCore s).st = 0 ∧
    (∀ a : Fin fontSize, (initCore s).byteAt a.val = s.params.fontTable[a]) ∧
    (∀ a : Nat, fontSize ≤ a → a < memSize → (initCore s).byteAt a = 0) ∧
    (∀ n : Nat, (initCore s).pixel n = false) ∧ (initCore s).redraw = true ∧
    (∀ k : Nat, (initCore s).keyDown k = false) ∧ (initCore s).fault = none ∧ (initCore s).params = s.params) ∧
  initCore State.reset = State.reset

/-- R132: an image of at most 3584 bytes goes to 0x200 and on and every other byte keeps its value; a longer one
is rejected with `ImageTooLarge` (an error answers no state: nothing is written; the spec's decision D21). -/
def Obligations.LoadCopiesImage : Prop :=
  ∀ (image : List Byte) (s : State),
    (image.length ≤ 4096 - 0x200 → MemoryCanonical s →
      ∃ t, load image s = .ok t ∧
        (∀ k, ∀ h : k < image.length, t.byteAt (0x200 + k) = image[k]) ∧
        MemoryKeptOutside 0x200 image.length s t ∧ t.pc = s.pc ∧ KeepsAllBut [] [.memory] s t) ∧
    (4096 - 0x200 < image.length → load image s = .error .imageTooLarge)

/-- R122, R123: the tick decrements each timer, saturating at 0, signals `SoundEvent` exactly when ST goes from
1 to 0, and changes nothing else, whatever `fault` is; no other host operation signals it (the spec's decisions D23, D24). -/
def Obligations.TickCountsDown : Prop :=
  ∀ s : State,
    (tick s).dt.toNat = s.dt.toNat - 1 ∧ (tick s).st.toNat = s.st.toNat - 1 ∧
    (soundEvent s = true ↔ s.st.toNat = 1 ∧ (tick s).st.toNat = 0) ∧
    (∀ op : HostOp, hostReturn op s = .sound ↔ op = .tick ∧ s.st.toNat = 1) ∧
    (tick s).pc = s.pc ∧ KeepsAllBut [] [.delay, .sound] s (tick s)

/-- R27, R28, R125: `set_keys` writes the keypad and `clear_redraw` clears the redraw flag, and nothing else. -/
def Obligations.KeypadAndRedrawPorts : Prop :=
  ∀ (s : State) (k : Keypad),
    (∀ j : Nat, (setKeys k s).keyDown j = k.getLsbD j) ∧ (setKeys k s).pc = s.pc ∧
    KeepsAllBut [] [.keypad] s (setKeys k s) ∧
    (clearRedraw s).redraw = false ∧ (clearRedraw s).pc = s.pc ∧ KeepsAllBut [] [.redraw] s (clearRedraw s)

/-! ## Control transfer -/

/-- R73: 1NNN sets pc to NNN, for every NNN, and changes nothing else. -/
def Obligations.JumpSetsPc : Prop :=
  ∀ (nnn : Addr) (s : State), ∃ t, exec (.jp nnn) s = .next t ∧ t.pc.toNat = nnn.toNat ∧ KeepsAllBut [] [] s t

/-- R75: BNNN sets pc to NNN + V0 (no reduction mod 4096; the 16-bit width is the spec's own inference, R75's last
sentence), and changes nothing else. -/
def Obligations.OffsetJumpSetsPc : Prop :=
  ∀ (nnn : Addr) (s : State), ∃ t, exec (.jpV0 nnn) s = .next t ∧ t.pc.toNat = nnn.toNat + (s.reg 0).toNat ∧ KeepsAllBut [] [] s t

/-- R74: 2NNN pushes pc + 2 and jumps; with 16 entries on the stack it raises `StackOverflow(pc)`. -/
def Obligations.CallPushesReturnAddress : Prop :=
  ∀ (nnn : Addr) (s : State),
    (s.sp.val < 16 →
      ∃ t, exec (.call nnn) s = .next t ∧ t.pc.toNat = nnn.toNat ∧ t.sp.val = s.sp.val + 1 ∧
        (∀ k : Fin stackDepth, k.val = s.sp.val → t.stack[k] = s.pc + 2#16) ∧
        (∀ k : Fin stackDepth, k.val ≠ s.sp.val → t.stack[k] = s.stack[k]) ∧ KeepsAllBut [] [.stack] s t) ∧
    (s.sp.val = 16 → ∃ t, exec (.call nnn) s = .next t ∧ FaultsWith (.stackOverflow s.pc) s t)

/-- R72: 00EE pops the return address into pc without increment, the entry not cleared; on an empty stack it raises
`StackUnderflow(pc)`. -/
def Obligations.ReturnPopsAddress : Prop :=
  ∀ s : State,
    (0 < s.sp.val →
      ∃ t, exec .ret s = .next t ∧ t.sp.val = s.sp.val - 1 ∧
        (∀ k : Fin stackDepth, k.val = s.sp.val - 1 → t.pc = s.stack[k]) ∧
        (∀ k : Fin stackDepth, t.stack[k] = s.stack[k]) ∧ KeepsAllBut [] [.stack] s t) ∧
    (s.sp.val = 0 → ∃ t, exec .ret s = .next t ∧ FaultsWith (.stackUnderflow s.pc) s t)

/-- `95_test_vectors.md` V7: a return taken with the stack as the call left it goes to the instruction after the call
and leaves the depth as it was. -/
def Obligations.CallThenReturnComesBack : Prop :=
  ∀ (nnn : Addr) (s t u : State), exec (.call nnn) s = .next t → t.fault = s.fault → s.fault = none →
    u.sp = t.sp → (∀ k : Fin stackDepth, u.stack[k] = t.stack[k]) →
    ∃ w, exec .ret u = .next w ∧ w.pc = s.pc + 2#16 ∧ w.sp = s.sp

/-- R76, R77, R78, R79: the skips on registers. -/
def Obligations.RegisterSkips : Prop :=
  ∀ (x y : Reg) (nn : Byte) (s : State),
    (∃ t, exec (.seByte x nn) s = .next t ∧ SkipsWhen (s.reg x = nn) s t ∧ KeepsAllBut [] [] s t) ∧
    (∃ t, exec (.sneByte x nn) s = .next t ∧ SkipsWhen (s.reg x ≠ nn) s t ∧ KeepsAllBut [] [] s t) ∧
    (∃ t, exec (.seReg x y) s = .next t ∧ SkipsWhen (s.reg x = s.reg y) s t ∧ KeepsAllBut [] [] s t) ∧
    (∃ t, exec (.sneReg x y) s = .next t ∧ SkipsWhen (s.reg x ≠ s.reg y) s t ∧ KeepsAllBut [] [] s t)

/-- R107, R108, R109: the skips on a key; a key number above 0x0F raises `KeyIndexOutOfRange(vx)` (the spec's decision D9). -/
def Obligations.KeySkips : Prop :=
  ∀ (x : Reg) (s : State),
    ((s.reg x).toNat ≤ 0x0F →
      (∃ t, exec (.skp x) s = .next t ∧ SkipsWhen (s.keyDown (s.reg x).toNat = true) s t ∧ KeepsAllBut [] [] s t) ∧
      (∃ t, exec (.sknp x) s = .next t ∧ SkipsWhen (s.keyDown (s.reg x).toNat = false) s t ∧ KeepsAllBut [] [] s t)) ∧
    (0x0F < (s.reg x).toNat →
      (∃ t, exec (.skp x) s = .next t ∧ FaultsWith (.keyIndexOutOfRange (s.reg x)) s t) ∧
      (∃ t, exec (.sknp x) s = .next t ∧ FaultsWith (.keyIndexOutOfRange (s.reg x)) s t))

/-- R65: the next pc of every instruction that did not fault (the row of FX0A is the spec's decision D7). -/
def Obligations.NextPcTable : Prop :=
  ∀ (i : Instr) (s t : State), exec i s = .next t → s.fault = none → t.fault = none → NextPc i s t

/-! ## ALU -/

/-- R82, R83: the loads of a register. -/
def Obligations.LoadsWriteRegister : Prop :=
  ∀ (x y : Reg) (nn : Byte) (s : State),
    (∃ t, exec (.ldByte x nn) s = .next t ∧ t.reg x = nn ∧ t.pc = s.pc + 2#16 ∧ KeepsAllBut [x] [] s t) ∧
    (∃ t, exec (.ldReg x y) s = .next t ∧ t.reg x = s.reg y ∧ t.pc = s.pc + 2#16 ∧ KeepsAllBut [x] [] s t)

/-- R84: add immediate, modulo 256, without a flag. -/
def Obligations.AddImmediateWraps : Prop :=
  ∀ (x : Reg) (nn : Byte) (s : State),
    ∃ t, exec (.addByte x nn) s = .next t ∧ (t.reg x).toNat = ((s.reg x).toNat + nn.toNat) % 256 ∧
      t.pc = s.pc + 2#16 ∧ KeepsAllBut [x] [] s t

/-- R85, R86, R87: or, and, exclusive or, bit by bit, without a flag. -/
def Obligations.LogicIsBitwise : Prop :=
  ∀ (x y : Reg) (s : State),
    (∃ t, exec (.orReg x y) s = .next t ∧ t.pc = s.pc + 2#16 ∧ KeepsAllBut [x] [] s t ∧
      ∀ b, (t.reg x).getLsbD b = ((s.reg x).getLsbD b || (s.reg y).getLsbD b)) ∧
    (∃ t, exec (.andReg x y) s = .next t ∧ t.pc = s.pc + 2#16 ∧ KeepsAllBut [x] [] s t ∧
      ∀ b, (t.reg x).getLsbD b = ((s.reg x).getLsbD b && (s.reg y).getLsbD b)) ∧
    (∃ t, exec (.xorReg x y) s = .next t ∧ t.pc = s.pc + 2#16 ∧ KeepsAllBut [x] [] s t ∧
      ∀ b, (t.reg x).getLsbD b = ((s.reg x).getLsbD b ^^ (s.reg y).getLsbD b))

/-- R88: add with carry out, for every destination, VF included (R68). -/
def Obligations.AddReportsCarry : Prop :=
  ∀ (x y : Reg) (s : State), ∃ t, exec (.addReg x y) s = .next t ∧
    FlagAndResult x (if 255 < (s.reg x).toNat + (s.reg y).toNat then 1 else 0)
      (((s.reg x).toNat + (s.reg y).toNat) % 256) s t

/-- R89, R90: the two subtractions, with "no borrow" in VF. -/
def Obligations.SubtractionsReportNoBorrow : Prop :=
  ∀ (x y : Reg) (s : State),
    (∃ t, exec (.sub x y) s = .next t ∧
      FlagAndResult x (if (s.reg y).toNat ≤ (s.reg x).toNat then 1 else 0)
        (((s.reg x).toNat + 256 - (s.reg y).toNat) % 256) s t) ∧
    (∃ t, exec (.subn x y) s = .next t ∧
      FlagAndResult x (if (s.reg x).toNat ≤ (s.reg y).toNat then 1 else 0)
        (((s.reg y).toNat + 256 - (s.reg x).toNat) % 256) s t)

/-- R91, R92: the shifts of Vx by one; the bit shifted out goes to VF. -/
def Obligations.ShiftsReportBitShiftedOut : Prop :=
  ∀ (x y : Reg) (s : State),
    (∃ t, exec (.shr x y) s = .next t ∧
      FlagAndResult x ((s.reg x).toNat % 2) ((s.reg x).toNat / 2) s t) ∧
    (∃ t, exec (.shl x y) s = .next t ∧
      FlagAndResult x ((s.reg x).toNat / 128) ((s.reg x).toNat * 2 % 256) s t)

/-- R93, R70: CXNN writes the step's random byte masked by NN. The byte is the model's free value number `draws` (log 4:
any byte, no claim about which), and the counter moves on so that the next CXNN takes another one (log 6). -/
def Obligations.RandomIsMasked : Prop :=
  ∀ (x : Reg) (nn : Byte) (s : State), ∃ t, exec (.rnd x nn) s = .next t ∧ t.reg x = Config.randomByte s.draws &&& nn ∧
    (∀ b, nn.getLsbD b = false → (t.reg x).getLsbD b = false) ∧ t.draws = s.draws + 1 ∧ t.pc = s.pc + 2#16 ∧
    KeepsAllBut [x] [.draws] s t

/-! ## Index register and memory transfer -/

/-- R95, R97: ANNN and FX29 set I to NNN and to 5 * vx (vx not reduced). -/
def Obligations.IndexLoads : Prop :=
  ∀ (nnn : Addr) (x : Reg) (s : State),
    (∃ t, exec (.ldI nnn) s = .next t ∧ t.i.toNat = nnn.toNat ∧ t.pc = s.pc + 2#16 ∧ KeepsAllBut [] [.index] s t) ∧
    (∃ t, exec (.ldFont x) s = .next t ∧ t.i.toNat = (s.reg x).toNat * 5 ∧ t.pc = s.pc + 2#16 ∧ KeepsAllBut [] [.index] s t)

/-- R96: FX1E adds the original vx to I modulo 65536 (the 16-bit width of I and this reduction are the spec's decision
D12), and VF says whether the sum exceeds 0xFFF. -/
def Obligations.IndexAddReportsOverflow : Prop :=
  ∀ (x : Reg) (s : State), ∃ t, exec (.addI x) s = .next t ∧
    t.i.toNat = (s.i.toNat + (s.reg x).toNat) % 65536 ∧
    (t.reg regF).toNat = (if 0xFFF < s.i.toNat + (s.reg x).toNat then 1 else 0) ∧
    t.pc = s.pc + 2#16 ∧ KeepsAllBut [regF] [.index] s t

/-- R38: the check of a block finds the first address that fails, in increasing order; a block of at most 16 bytes
can fail in one way only (the spec's decisions D1, D3, D15). -/
def Obligations.BlockCheckFindsFirstFailure : Prop :=
  ∀ (p : Params) (kind : AccessKind) (a n : Nat),
    (∀ f, checkBlock p kind a n = some f ↔
      ∃ k, k < n ∧ checkByte p kind (a + k) = some f ∧ ∀ j, j < k → checkByte p kind (a + j) = none) ∧
    (∀ b f, checkByte p kind b = some f ↔
      (0xFFF < b ∧ f = .addressOutOfRange b) ∨
      (b ≤ 0x04F ∧ kind = .write ∧ p.fontWrite = .fault ∧ f = .fontRegionWrite b)) ∧
    (n ≤ 16 → ¬ ((∃ k, k < n ∧ a + k ≤ 0x04F) ∧ ∃ k, k < n ∧ 0xFFF < a + k))

/-- R98: FX33 stores the three decimal digits of vx, or faults and writes nothing (the faults are the spec's decisions D1,
D3, D15). The premise is the model's own invariant on the memory list (log 10; StepKeepsInvariant). -/
def Obligations.BcdStoresDigits : Prop :=
  ∀ (x : Reg) (s : State), MemoryCanonical s →
    (Writable s.base 3 s → ∃ t, exec (.ldBcd x) s = .next t ∧
      (t.byteAt s.base).toNat = (s.reg x).toNat / 100 ∧
      (t.byteAt (s.base + 1)).toNat = (s.reg x).toNat / 10 % 10 ∧
      (t.byteAt (s.base + 2)).toNat = (s.reg x).toNat % 10 ∧
      MemoryKeptOutside s.base 3 s t ∧ t.pc = s.pc + 2#16 ∧ KeepsAllBut [] [.memory] s t) ∧
    WriteFaults s.base 3 s (fun t => exec (.ldBcd x) s = .next t)

/-- R99: FX55 stores V0..Vx at I and adds X + 1 to I, or faults and writes nothing (the faults are the spec's decisions
D1, D3, D15, the width of I is D12). -/
def Obligations.BlockStoreWritesRegisters : Prop :=
  ∀ (x : Reg) (s : State), MemoryCanonical s →
    (Writable s.base (x.val + 1) s → ∃ t, exec (.storeRegs x) s = .next t ∧
      (∀ k : Reg, k ≤ x → t.byteAt (s.base + k.val) = s.reg k) ∧
      t.i.toNat = (s.i.toNat + x.val + 1) % 65536 ∧
      MemoryKeptOutside s.base (x.val + 1) s t ∧ t.pc = s.pc + 2#16 ∧ KeepsAllBut [] [.memory, .index] s t) ∧
    WriteFaults s.base (x.val + 1) s (fun t => exec (.storeRegs x) s = .next t)

/-- R100: FX65 loads V0..Vx from I and adds X + 1 to I, or faults and loads nothing (the fault is the spec's decisions D1,
D15, the width of I is D12). -/
def Obligations.BlockLoadReadsRegisters : Prop :=
  ∀ (x : Reg) (s : State),
    (Readable s.base (x.val + 1) → ∃ t, exec (.loadRegs x) s = .next t ∧
      (∀ k : Reg, k ≤ x → t.reg k = s.byteAt (s.base + k.val)) ∧
      t.i.toNat = (s.i.toNat + x.val + 1) % 65536 ∧
      t.pc = s.pc + 2#16 ∧ KeepsAllBut ((List.finRange 16).filter (· ≤ x)) [.index] s t) ∧
    ReadFaults s.base (x.val + 1) s (fun t => exec (.loadRegs x) s = .next t)

/-- R100's last sentence, `95_test_vectors.md` V10: FX55 then FX65 with the same X and the same starting I restores
V0..Vx, whatever happened to the registers in between. -/
def Obligations.StoreThenLoadRestoresRegisters : Prop :=
  ∀ (x : Reg) (s t u : State), MemoryCanonical s → Writable s.base (x.val + 1) s → exec (.storeRegs x) s = .next t →
    u.i = s.i → (∀ a, u.byteAt a = t.byteAt a) →
    ∃ w, exec (.loadRegs x) u = .next w ∧ w.i = t.i ∧ ∀ k : Reg, k ≤ x → w.reg k = s.reg k

/-- R47 (the spec's decision D18): bytes FX55 stored are what a later fetch at them reads. -/
def Obligations.StoreIsSeenByFetch : Prop :=
  ∀ (x k : Reg) (s t u : State), MemoryCanonical s → Writable s.base (x.val + 1) s → exec (.storeRegs x) s = .next t →
    k.val + 1 ≤ x.val → (∀ a, u.byteAt a = t.byteAt a) → u.pc.toNat = s.base + k.val → Fetchable u →
    ∃ k' : Reg, k'.val = k.val + 1 ∧ fetch u = .ok (wordOfBytes (s.reg k) (s.reg k'))

/-! ## Display -/

/-- R103: 00E0 clears every pixel and sets the redraw flag, whatever the screen held. -/
def Obligations.ClearScreen : Prop :=
  ∀ s : State, ∃ t, exec .cls s = .next t ∧ (∀ n, t.pixel n = false) ∧ t.redraw = true ∧ t.pc = s.pc + 2#16 ∧
    KeepsAllBut [] [.pixels, .redraw] s t

/-- R101, R102, R104, R105: DXYN XORs exactly the pixels its set bits land on, VF reports a collision (tested before
the XOR), the redraw flag is set, and nothing else changes; or it faults with none of this. Both edge policies, both
`DRAW_VF_CLEAR` values, X or Y = F included (the spec's decisions D4, D5, D15; `clip` is its general knowledge). -/
def Obligations.DrawXorsSpriteIntoScreen : Prop :=
  ∀ (x y : Reg) (n : Nat) (s : State), n < 16 →
    (Readable s.base n → ∃ t, exec (.drw x y n) s = .next t ∧
      (∀ p, t.pixel p = true ↔ ¬ (s.pixel p = true ↔ SpriteCovers s x y n p)) ∧
      ((∃ p, SpriteCovers s x y n p ∧ s.pixel p = true) → t.reg regF = 1) ∧
      ((¬ ∃ p, SpriteCovers s x y n p ∧ s.pixel p = true) →
        t.reg regF = if s.params.drawVfClear = true then 0 else s.reg regF) ∧
      t.redraw = true ∧ t.pc = s.pc + 2#16 ∧ KeepsAllBut [regF] [.pixels, .redraw] s t) ∧
    ReadFaults s.base n s (fun t => exec (.drw x y n) s = .next t)

/-- R104 twice, the first half of R106 (b): the same sprite drawn twice at the same origin restores every pixel; and the
second draw collides exactly when the first one set a pixel (turned a 0 into a 1). R106 (b) says more, that any set bit in
the drawn area makes the second draw collide; R104 does not give that where the first draw only cleared pixels (log 20).
`SecondDrawReportsDrawnPixels` says when each holds. -/
def Obligations.DrawTwiceRestoresScreen : Prop :=
  ∀ (x y : Reg) (n : Nat) (s t u : State), n < 16 → Readable s.base n → exec (.drw x y n) s = .next t →
    u.i = s.i → u.reg x = s.reg x → u.reg y = s.reg y → u.params = s.params →
    (∀ a, u.byteAt a = s.byteAt a) → (∀ p, u.pixel p = t.pixel p) →
    ∃ w, exec (.drw x y n) u = .next w ∧ (∀ p, w.pixel p = s.pixel p) ∧
      ((∃ p, s.pixel p = false ∧ t.pixel p = true) → w.reg regF = 1) ∧
      ((¬ ∃ p, s.pixel p = false ∧ t.pixel p = true) →
        w.reg regF = if s.params.drawVfClear = true then 0 else u.reg regF)

/-- R106 (b), its half about VF, in terms of the covered pixels. The first clause and the third are R106 (b)'s sentence on
an area where some, or every, covered pixel was 0 before the first draw; the second is R104 where every covered pixel was
1 (or none is covered): the first draw cleared them all, so the second meets no 1 and does not collide (log 20). -/
def Obligations.SecondDrawReportsDrawnPixels : Prop :=
  ∀ (x y : Reg) (n : Nat) (s t u : State), n < 16 → Readable s.base n → exec (.drw x y n) s = .next t →
    u.i = s.i → u.reg x = s.reg x → u.reg y = s.reg y → u.params = s.params →
    (∀ a, u.byteAt a = s.byteAt a) → (∀ p, u.pixel p = t.pixel p) →
    ∃ w, exec (.drw x y n) u = .next w ∧
      ((∃ p, SpriteCovers s x y n p ∧ s.pixel p = false) → w.reg regF = 1) ∧
      ((∀ p, SpriteCovers s x y n p → s.pixel p = true) →
        w.reg regF = if s.params.drawVfClear = true then 0 else u.reg regF) ∧
      ((∀ p, SpriteCovers s x y n p → s.pixel p = false) → s.params.drawVfClear = true →
        (w.reg regF = 1 ↔ ∃ p, SpriteCovers s x y n p))

/-- R106 (a): under both edge policies the pixels one DXYN touches are pairwise distinct, so the order in which they are
processed is unobservable: plotting them in any order gives the same screen and the same collision. -/
def Obligations.SpriteOrderIsUnobservable : Prop :=
  ∀ (edge : DrawEdge) (x0 y0 : Nat),
    (∀ c r c' r' p, c < 8 → c' < 8 → r < 15 → r' < 15 → LandsOn edge x0 y0 c r p → LandsOn edge x0 y0 c' r' p →
      c = c' ∧ r = r') ∧
    ∀ (rows : List Byte) (fb : FrameBuffer) (order : List Nat), rows.length ≤ 15 →
      order.Perm (spritePixels edge x0 y0 0 rows) → Canvas.plotAll ⟨fb, false⟩ order = drawSprite edge x0 y0 rows fb

/-! ## Keypad and timers -/

/-- R110: with no key pressed FX0A changes nothing at all and the step waits; else a pressed key, under `lowest` the
lowest, goes to Vx. (The spec's decisions D7, D8; which pressed key under `any` is a free choice, log 5: nothing is
claimed of it.) -/
def Obligations.KeyWait : Prop :=
  ∀ (x : Reg) (s : State),
    ((∀ k, s.keyDown k = false) → exec (.ldVxKey x) s = .next s ∧
      (s.fault = none → Fetchable s → decode (wordAtPc s) = .ok (.ldVxKey x) → stepReturn s = some .waiting)) ∧
    ((∃ k, s.keyDown k = true) →
      (s.fault = none → Fetchable s → decode (wordAtPc s) = .ok (.ldVxKey x) → stepReturn s = some .executed) ∧
      ∃ t, exec (.ldVxKey x) s = .next t ∧ s.keyDown (t.reg x).toNat = true ∧
        (s.params.keySelect = .lowest → ∀ j, s.keyDown j = true → (t.reg x).toNat ≤ j) ∧
        t.pc = s.pc + 2#16 ∧ KeepsAllBut [x] [.draws] s t)

/-- R111, R112, R113: reading DT, and setting DT and ST. -/
def Obligations.TimerInstructions : Prop :=
  ∀ (x : Reg) (s : State),
    (∃ t, exec (.ldVxDt x) s = .next t ∧ t.reg x = s.dt ∧ t.pc = s.pc + 2#16 ∧ KeepsAllBut [x] [] s t) ∧
    (∃ t, exec (.ldDtVx x) s = .next t ∧ t.dt = s.reg x ∧ t.pc = s.pc + 2#16 ∧ KeepsAllBut [] [.delay] s t) ∧
    (∃ t, exec (.ldStVx x) s = .next t ∧ t.st = s.reg x ∧ t.pc = s.pc + 2#16 ∧ KeepsAllBut [] [.sound] s t)

/-! ## The step -/

/-- R61, R62, R63: at a running core whose pc can be fetched from, the step runs the instruction the word at pc
decodes to. The step adds nothing around `exec`. -/
def Obligations.StepRunsDecodedInstruction : Prop :=
  ∀ (s : State) (i : Instr), s.fault = none → Fetchable s → decode (wordAtPc s) = .ok i → step s = exec i s

/-- R71: an UNKNOWN word is reported with its address and skipped, and nothing else changes. -/
def Obligations.StepSkipsUnknownWord : Prop :=
  ∀ (s : State) (e : DecodeError), s.fault = none → Fetchable s → decode (wordAtPc s) = .error e →
    ∃ t, step s = .next t ∧ t.pc = s.pc + 2#16 ∧ KeepsAllBut [] [] s t ∧
      stepReturn s = some (.reported (wordAtPc s) s.pc)

/-- R60 (the spec's decision D13): a faulted core's step changes nothing and returns the fault. -/
def Obligations.FaultedCoreIsStuck : Prop :=
  ∀ (s : State) (f : Fault), s.fault = some f → step s = .next s ∧ stepReturn s = some (.faulted f)

/-- R61, R117: the faults of a fetch, in their order (the spec's decisions D1, D2, D15). -/
def Obligations.FetchFaults : Prop :=
  ∀ s : State, s.fault = none →
    (s.pc.toNat % 2 = 1 → s.params.pcOdd = .fault → ∃ t, step s = .next t ∧ FaultsWith (.misalignedFetch s.pc) s t) ∧
    (s.pc.toNat % 2 = 0 ∨ s.params.pcOdd = .fetch →
      (0xFFF < s.pc.toNat → ∃ t, step s = .next t ∧ FaultsWith (.addressOutOfRange s.pc.toNat) s t) ∧
      (s.pc.toNat = 0xFFF → ∃ t, step s = .next t ∧ FaultsWith (.addressOutOfRange 0x1000) s t))

/-- R64 (the spec's decision D25): a step always answers a next state (log 7) and one of the four outcomes, and the
outcome tells what happened. -/
def Obligations.StepReturnsOneOfFourOutcomes : Prop :=
  ∀ s : State, ∃ t o, step s = .next t ∧ stepReturn s = some o ∧
    (∀ f, o = .faulted f ↔ t.fault = some f) ∧
    (o = .waiting → t = s ∧ (∀ k, s.keyDown k = false) ∧ ∃ x, decode (wordAtPc s) = .ok (.ldVxKey x)) ∧
    (∀ w a, o = .reported w a → a = s.pc ∧ w = wordAtPc s ∧ decode w = .error (.unknownOpcode w) ∧ t.pc = s.pc + 2#16) ∧
    (o = .executed → ∃ i, decode (wordAtPc s) = .ok i ∧ exec i s = .next t ∧ t.fault = none)

/-- R118 (the spec's decision D15): when a step raises, the state is as before the step but for `fault`, and the step returns the fault. -/
def Obligations.FaultsArePrecise : Prop :=
  ∀ (s t : State) (f : Fault), s.fault = none → step s = .next t → t.fault = some f → FaultsWith f s t ∧ stepReturn s = some (.faulted f)

/-- R119 (the spec's decision D13): once faulted, no sequence of steps, ticks, keypad updates and redraw clears changes the fault, or anything
else but the timers, the keypad and the redraw flag. -/
def Obligations.FaultHoldsUntilInitialize : Prop :=
  ∀ (ops : List HostOp) (s : State) (f : Fault), s.fault = some f →
    (∀ op ∈ ops, op = .step ∨ op = .tick ∨ op = .clearRedraw ∨ ∃ k, op = .setKeys k) →
    (hostRun ops s).fault = some f ∧ (hostRun ops s).pc = s.pc ∧
      KeepsAllBut [] [.delay, .sound, .keypad, .redraw] s (hostRun ops s)

/-- R137 (b), the spec's decision D30: an idle state whose pc can be fetched from is left unchanged by every step. (At an odd pc under the
default PC_ODD_POLICY the fetch of R61 faults instead, so fetchability is a hypothesis here.) -/
def Obligations.IdleStateStays : Prop :=
  ∀ s : State, Idle s → Fetchable s → step s = .next s ∧ stepReturn s = some .executed

/-! ## Who writes what -/

/-- R16, R17: an instruction changes a register only where it names it as destination, or as the flag register of
one of the seven flag-producing instructions. -/
def Obligations.OnlyDestinationsAndFlagChange : Prop :=
  ∀ (i : Instr) (s t : State) (r : Reg), exec i s = .next t → t.reg r ≠ s.reg r →
    destinations i r ∨ (r = regF ∧ writesFlag i = true)

/-- R26, R27: only 00E0 and DXYN change a pixel or the redraw flag; no step clears the flag, and a step that changes
a pixel sets it. -/
def Obligations.ScreenChangesOnlyByDisplayInstructions : Prop :=
  ∀ (i : Instr) (s t : State), exec i s = .next t →
    ((∃ n, t.pixel n ≠ s.pixel n) → (i = .cls ∨ ∃ x y n, i = .drw x y n) ∧ t.redraw = true) ∧
    (t.redraw ≠ s.redraw → (i = .cls ∨ ∃ x y n, i = .drw x y n) ∧ t.redraw = true)

/-- R41: only FX33 and FX55 change a byte of memory, and only in the block at I. -/
def Obligations.MemoryChangesOnlyByStores : Prop :=
  ∀ (i : Instr) (s t : State) (a : Nat), exec i s = .next t → t.byteAt a ≠ s.byteAt a →
    (∃ x, i = .ldBcd x ∧ inBlock s.i.toNat 3 a) ∨ (∃ x : Reg, i = .storeRegs x ∧ inBlock s.i.toNat (x.val + 1) a)

/-- R19, R21, R22, R28: the writers of I, of the stack and of the timers; no instruction writes the keypad. -/
def Obligations.OtherStateHasItsWriters : Prop :=
  ∀ (i : Instr) (s t : State), exec i s = .next t →
    (t.i ≠ s.i → (∃ nnn, i = .ldI nnn) ∨ ∃ x, i = .addI x ∨ i = .ldFont x ∨ i = .storeRegs x ∨ i = .loadRegs x) ∧
    (t.sp ≠ s.sp → i = .ret ∨ ∃ nnn, i = .call nnn) ∧
    ((∃ k : Fin stackDepth, t.stack[k] ≠ s.stack[k]) → ∃ nnn, i = .call nnn) ∧
    (t.dt ≠ s.dt → ∃ x, i = .ldDtVx x) ∧ (t.st ≠ s.st → ∃ x, i = .ldStVx x) ∧
    t.key = s.key ∧ t.params = s.params

/-- R33, R37 (the spec's decision D3): under `FONT_WRITE_POLICY = fault`, no host operation but initialize changes a byte of the font region. -/
def Obligations.OnlyInitializeWritesFont : Prop :=
  ∀ (op : HostOp) (s : State) (a : Nat), s.params.fontWrite = .fault → op ≠ .init → a < 80 →
    (hostState op s).byteAt a = s.byteAt a

/-! ## Invariants -/

/-- Every step keeps `Inv`: pc at most 0x10FE (R66), return addresses at most 0x1000 (R72), memory canonical (log 10),
the font intact under the default policy (R37), and a recorded fault with the info its row of R114 names. -/
def Obligations.StepKeepsInvariant : Prop := ∀ s t : State, Inv s → step s = .next t → Inv t

/-- The reset state has `Inv`. -/
def Obligations.ResetHasInvariant : Prop := Inv State.reset

/-- Every host operation of R125 keeps `Inv`, in whatever order it comes (a load at any time included), and initialize
gives it from any state. -/
def Obligations.HostOperationsKeepInvariant : Prop :=
  (∀ s : State, Inv (initCore s)) ∧ ∀ (op : HostOp) (s : State), Inv s → Inv (hostState op s)

/-- R126, R137: at every point of every run in which the host does what R126 asks of it (initialize first; load at most
once, after initialize and before the first step; ticks, keypad updates, redraw clears and further initializes anywhere,
also between initialize and load), the state has `Inv`, from whatever state the core was in before. That a second
initialize opens no second load is log 9's reading of R126. -/
def Obligations.LegalRunsKeepInvariant : Prop :=
  ∀ (ops more : List HostOp) (s : State), legalRun (ops ++ more) = true → ops ≠ [] → Inv (hostRun ops s)

/-! ## Encoding -/

/-- R50, R52, R54: decoding the word, and the two bytes, of a well-formed instruction gives it back, with every
operand at every value the encoding admits. -/
def Obligations.DecodeOfEncode : Prop :=
  ∀ i : Instr, i.WellFormed →
    decode (encode i) = .ok i ∧ ∀ rest, decodeBytes (encodeBytes i ++ rest) = .ok (i, rest)

/-- Every word that decodes decodes to a well-formed instruction whose encoding is that word: each word has one
meaning, and no bit of it is dropped. -/
def Obligations.EncodeOfDecode : Prop :=
  ∀ (w : Word) (i : Instr), decode w = .ok i → i.WellFormed ∧ encode i = w

/-- R54, R55: the decoder is the first match in the table of R54, and no two rows match the same word. -/
def Obligations.DecoderIsFirstTableMatch : Prop :=
  (∀ (w : Word) (i : Instr), decode w = .ok i → firstRow w = some (rowNumber i)) ∧
  (∀ w : Word, decode w = .error (.unknownOpcode w) ↔ firstRow w = none) ∧
  (∀ (j k : Fin 34) (w : Word) (rj rk : OpcodeRow), opcodeRows[j.val]? = some rj → opcodeRows[k.val]? = some rk →
    rj.selects w = true → rk.selects w = true → j = k)

/-- R56: the words that decode to UNKNOWN, family by family. -/
def Obligations.UnknownWordsByFamily : Prop :=
  ∀ w : Word, decode w = .error (.unknownOpcode w) ↔
    (w.toNat < 0x1000 ∧ w.toNat ≠ 0x00E0 ∧ w.toNat ≠ 0x00EE) ∨
    ((w.toNat / 0x1000 = 5 ∨ w.toNat / 0x1000 = 9) ∧ w.toNat % 16 ≠ 0) ∨
    (w.toNat / 0x1000 = 8 ∧ w.toNat % 16 ∈ [0x8, 0x9, 0xA, 0xB, 0xC, 0xD, 0xF]) ∨
    (w.toNat / 0x1000 = 0xE ∧ w.toNat % 256 ∉ [0x9E, 0xA1]) ∨
    (w.toNat / 0x1000 = 0xF ∧ w.toNat % 256 ∉ [0x07, 0x0A, 0x15, 0x18, 0x1E, 0x29, 0x33, 0x55, 0x65])

/-- Words of R54 written out bit by bit decode to the instruction they stand for, one of each format. -/
def Obligations.SampleWordsDecode : Prop :=
  decode 0b0000000011100000#16 = .ok .cls ∧ decode 0b0000000011101110#16 = .ok .ret ∧
  decode 0b0001001000000100#16 = .ok (.jp 0x204#12) ∧ decode 0b1011001100000000#16 = .ok (.jpV0 0x300#12) ∧
  decode 0b0110101000111100#16 = .ok (.ldByte 0xA 0x3C#8) ∧ decode 0b1000001000110110#16 = .ok (.shr 2 3) ∧
  decode 0b1101000000010101#16 = .ok (.drw 0 1 5) ∧ decode 0b1110010110100001#16 = .ok (.sknp 5) ∧
  decode 0b1111001001010101#16 = .ok (.storeRegs 2)
end

