-- ==== Sys2Proof/Laws/State.lean ====
section
/-! SUPPORT. One lemma per field per update, true by definition: no later proof unfolds a record update. -/

namespace Sys2Proof.Machine

/-! ## setReg -/

@[simp] theorem State.v_setReg (s : State) (x : Reg) (b : Byte) : (s.setReg x b).v = s.v.set x b := rfl
@[simp] theorem State.i_setReg (s : State) (x : Reg) (b : Byte) : (s.setReg x b).i = s.i := rfl
@[simp] theorem State.pc_setReg (s : State) (x : Reg) (b : Byte) : (s.setReg x b).pc = s.pc := rfl
@[simp] theorem State.stack_setReg (s : State) (x : Reg) (b : Byte) : (s.setReg x b).stack = s.stack := rfl
@[simp] theorem State.sp_setReg (s : State) (x : Reg) (b : Byte) : (s.setReg x b).sp = s.sp := rfl
@[simp] theorem State.dt_setReg (s : State) (x : Reg) (b : Byte) : (s.setReg x b).dt = s.dt := rfl
@[simp] theorem State.st_setReg (s : State) (x : Reg) (b : Byte) : (s.setReg x b).st = s.st := rfl
@[simp] theorem State.mem_setReg (s : State) (x : Reg) (b : Byte) : (s.setReg x b).mem = s.mem := rfl
@[simp] theorem State.fb_setReg (s : State) (x : Reg) (b : Byte) : (s.setReg x b).fb = s.fb := rfl
@[simp] theorem State.redraw_setReg (s : State) (x : Reg) (b : Byte) : (s.setReg x b).redraw = s.redraw := rfl
@[simp] theorem State.key_setReg (s : State) (x : Reg) (b : Byte) : (s.setReg x b).key = s.key := rfl
@[simp] theorem State.fault_setReg (s : State) (x : Reg) (b : Byte) : (s.setReg x b).fault = s.fault := rfl
@[simp] theorem State.params_setReg (s : State) (x : Reg) (b : Byte) : (s.setReg x b).params = s.params := rfl
@[simp] theorem State.draws_setReg (s : State) (x : Reg) (b : Byte) : (s.setReg x b).draws = s.draws := rfl

/-! ## setIndex -/

@[simp] theorem State.v_setIndex (s : State) (w : Word) : (s.setIndex w).v = s.v := rfl
@[simp] theorem State.i_setIndex (s : State) (w : Word) : (s.setIndex w).i = w := rfl
@[simp] theorem State.pc_setIndex (s : State) (w : Word) : (s.setIndex w).pc = s.pc := rfl
@[simp] theorem State.stack_setIndex (s : State) (w : Word) : (s.setIndex w).stack = s.stack := rfl
@[simp] theorem State.sp_setIndex (s : State) (w : Word) : (s.setIndex w).sp = s.sp := rfl
@[simp] theorem State.dt_setIndex (s : State) (w : Word) : (s.setIndex w).dt = s.dt := rfl
@[simp] theorem State.st_setIndex (s : State) (w : Word) : (s.setIndex w).st = s.st := rfl
@[simp] theorem State.mem_setIndex (s : State) (w : Word) : (s.setIndex w).mem = s.mem := rfl
@[simp] theorem State.fb_setIndex (s : State) (w : Word) : (s.setIndex w).fb = s.fb := rfl
@[simp] theorem State.redraw_setIndex (s : State) (w : Word) : (s.setIndex w).redraw = s.redraw := rfl
@[simp] theorem State.key_setIndex (s : State) (w : Word) : (s.setIndex w).key = s.key := rfl
@[simp] theorem State.fault_setIndex (s : State) (w : Word) : (s.setIndex w).fault = s.fault := rfl
@[simp] theorem State.params_setIndex (s : State) (w : Word) : (s.setIndex w).params = s.params := rfl
@[simp] theorem State.draws_setIndex (s : State) (w : Word) : (s.setIndex w).draws = s.draws := rfl

/-! ## setPc -/

@[simp] theorem State.v_setPc (s : State) (w : Word) : (s.setPc w).v = s.v := rfl
@[simp] theorem State.i_setPc (s : State) (w : Word) : (s.setPc w).i = s.i := rfl
@[simp] theorem State.pc_setPc (s : State) (w : Word) : (s.setPc w).pc = w := rfl
@[simp] theorem State.stack_setPc (s : State) (w : Word) : (s.setPc w).stack = s.stack := rfl
@[simp] theorem State.sp_setPc (s : State) (w : Word) : (s.setPc w).sp = s.sp := rfl
@[simp] theorem State.dt_setPc (s : State) (w : Word) : (s.setPc w).dt = s.dt := rfl
@[simp] theorem State.st_setPc (s : State) (w : Word) : (s.setPc w).st = s.st := rfl
@[simp] theorem State.mem_setPc (s : State) (w : Word) : (s.setPc w).mem = s.mem := rfl
@[simp] theorem State.fb_setPc (s : State) (w : Word) : (s.setPc w).fb = s.fb := rfl
@[simp] theorem State.redraw_setPc (s : State) (w : Word) : (s.setPc w).redraw = s.redraw := rfl
@[simp] theorem State.key_setPc (s : State) (w : Word) : (s.setPc w).key = s.key := rfl
@[simp] theorem State.fault_setPc (s : State) (w : Word) : (s.setPc w).fault = s.fault := rfl
@[simp] theorem State.params_setPc (s : State) (w : Word) : (s.setPc w).params = s.params := rfl
@[simp] theorem State.draws_setPc (s : State) (w : Word) : (s.setPc w).draws = s.draws := rfl

/-! ## advance -/

@[simp] theorem State.v_advance (s : State) : (s.advance).v = s.v := rfl
@[simp] theorem State.i_advance (s : State) : (s.advance).i = s.i := rfl
@[simp] theorem State.pc_advance (s : State) : (s.advance).pc = s.pc + 2#16 := rfl
@[simp] theorem State.stack_advance (s : State) : (s.advance).stack = s.stack := rfl
@[simp] theorem State.sp_advance (s : State) : (s.advance).sp = s.sp := rfl
@[simp] theorem State.dt_advance (s : State) : (s.advance).dt = s.dt := rfl
@[simp] theorem State.st_advance (s : State) : (s.advance).st = s.st := rfl
@[simp] theorem State.mem_advance (s : State) : (s.advance).mem = s.mem := rfl
@[simp] theorem State.fb_advance (s : State) : (s.advance).fb = s.fb := rfl
@[simp] theorem State.redraw_advance (s : State) : (s.advance).redraw = s.redraw := rfl
@[simp] theorem State.key_advance (s : State) : (s.advance).key = s.key := rfl
@[simp] theorem State.fault_advance (s : State) : (s.advance).fault = s.fault := rfl
@[simp] theorem State.params_advance (s : State) : (s.advance).params = s.params := rfl
@[simp] theorem State.draws_advance (s : State) : (s.advance).draws = s.draws := rfl

/-! ## skipIf -/

@[simp] theorem State.v_skipIf (s : State) (c : Bool) : (s.skipIf c).v = s.v := rfl
@[simp] theorem State.i_skipIf (s : State) (c : Bool) : (s.skipIf c).i = s.i := rfl
@[simp] theorem State.pc_skipIf (s : State) (c : Bool) : (s.skipIf c).pc = if c then s.pc + 4#16 else s.pc + 2#16 := rfl
@[simp] theorem State.stack_skipIf (s : State) (c : Bool) : (s.skipIf c).stack = s.stack := rfl
@[simp] theorem State.sp_skipIf (s : State) (c : Bool) : (s.skipIf c).sp = s.sp := rfl
@[simp] theorem State.dt_skipIf (s : State) (c : Bool) : (s.skipIf c).dt = s.dt := rfl
@[simp] theorem State.st_skipIf (s : State) (c : Bool) : (s.skipIf c).st = s.st := rfl
@[simp] theorem State.mem_skipIf (s : State) (c : Bool) : (s.skipIf c).mem = s.mem := rfl
@[simp] theorem State.fb_skipIf (s : State) (c : Bool) : (s.skipIf c).fb = s.fb := rfl
@[simp] theorem State.redraw_skipIf (s : State) (c : Bool) : (s.skipIf c).redraw = s.redraw := rfl
@[simp] theorem State.key_skipIf (s : State) (c : Bool) : (s.skipIf c).key = s.key := rfl
@[simp] theorem State.fault_skipIf (s : State) (c : Bool) : (s.skipIf c).fault = s.fault := rfl
@[simp] theorem State.params_skipIf (s : State) (c : Bool) : (s.skipIf c).params = s.params := rfl
@[simp] theorem State.draws_skipIf (s : State) (c : Bool) : (s.skipIf c).draws = s.draws := rfl

/-! ## setDelay -/

@[simp] theorem State.v_setDelay (s : State) (b : Byte) : (s.setDelay b).v = s.v := rfl
@[simp] theorem State.i_setDelay (s : State) (b : Byte) : (s.setDelay b).i = s.i := rfl
@[simp] theorem State.pc_setDelay (s : State) (b : Byte) : (s.setDelay b).pc = s.pc := rfl
@[simp] theorem State.stack_setDelay (s : State) (b : Byte) : (s.setDelay b).stack = s.stack := rfl
@[simp] theorem State.sp_setDelay (s : State) (b : Byte) : (s.setDelay b).sp = s.sp := rfl
@[simp] theorem State.dt_setDelay (s : State) (b : Byte) : (s.setDelay b).dt = b := rfl
@[simp] theorem State.st_setDelay (s : State) (b : Byte) : (s.setDelay b).st = s.st := rfl
@[simp] theorem State.mem_setDelay (s : State) (b : Byte) : (s.setDelay b).mem = s.mem := rfl
@[simp] theorem State.fb_setDelay (s : State) (b : Byte) : (s.setDelay b).fb = s.fb := rfl
@[simp] theorem State.redraw_setDelay (s : State) (b : Byte) : (s.setDelay b).redraw = s.redraw := rfl
@[simp] theorem State.key_setDelay (s : State) (b : Byte) : (s.setDelay b).key = s.key := rfl
@[simp] theorem State.fault_setDelay (s : State) (b : Byte) : (s.setDelay b).fault = s.fault := rfl
@[simp] theorem State.params_setDelay (s : State) (b : Byte) : (s.setDelay b).params = s.params := rfl
@[simp] theorem State.draws_setDelay (s : State) (b : Byte) : (s.setDelay b).draws = s.draws := rfl

/-! ## setSound -/

@[simp] theorem State.v_setSound (s : State) (b : Byte) : (s.setSound b).v = s.v := rfl
@[simp] theorem State.i_setSound (s : State) (b : Byte) : (s.setSound b).i = s.i := rfl
@[simp] theorem State.pc_setSound (s : State) (b : Byte) : (s.setSound b).pc = s.pc := rfl
@[simp] theorem State.stack_setSound (s : State) (b : Byte) : (s.setSound b).stack = s.stack := rfl
@[simp] theorem State.sp_setSound (s : State) (b : Byte) : (s.setSound b).sp = s.sp := rfl
@[simp] theorem State.dt_setSound (s : State) (b : Byte) : (s.setSound b).dt = s.dt := rfl
@[simp] theorem State.st_setSound (s : State) (b : Byte) : (s.setSound b).st = b := rfl
@[simp] theorem State.mem_setSound (s : State) (b : Byte) : (s.setSound b).mem = s.mem := rfl
@[simp] theorem State.fb_setSound (s : State) (b : Byte) : (s.setSound b).fb = s.fb := rfl
@[simp] theorem State.redraw_setSound (s : State) (b : Byte) : (s.setSound b).redraw = s.redraw := rfl
@[simp] theorem State.key_setSound (s : State) (b : Byte) : (s.setSound b).key = s.key := rfl
@[simp] theorem State.fault_setSound (s : State) (b : Byte) : (s.setSound b).fault = s.fault := rfl
@[simp] theorem State.params_setSound (s : State) (b : Byte) : (s.setSound b).params = s.params := rfl
@[simp] theorem State.draws_setSound (s : State) (b : Byte) : (s.setSound b).draws = s.draws := rfl

/-! ## setDisplay -/

@[simp] theorem State.v_setDisplay (s : State) (fb : FrameBuffer) : (s.setDisplay fb).v = s.v := rfl
@[simp] theorem State.i_setDisplay (s : State) (fb : FrameBuffer) : (s.setDisplay fb).i = s.i := rfl
@[simp] theorem State.pc_setDisplay (s : State) (fb : FrameBuffer) : (s.setDisplay fb).pc = s.pc := rfl
@[simp] theorem State.stack_setDisplay (s : State) (fb : FrameBuffer) : (s.setDisplay fb).stack = s.stack := rfl
@[simp] theorem State.sp_setDisplay (s : State) (fb : FrameBuffer) : (s.setDisplay fb).sp = s.sp := rfl
@[simp] theorem State.dt_setDisplay (s : State) (fb : FrameBuffer) : (s.setDisplay fb).dt = s.dt := rfl
@[simp] theorem State.st_setDisplay (s : State) (fb : FrameBuffer) : (s.setDisplay fb).st = s.st := rfl
@[simp] theorem State.mem_setDisplay (s : State) (fb : FrameBuffer) : (s.setDisplay fb).mem = s.mem := rfl
@[simp] theorem State.fb_setDisplay (s : State) (fb : FrameBuffer) : (s.setDisplay fb).fb = fb := rfl
@[simp] theorem State.redraw_setDisplay (s : State) (fb : FrameBuffer) : (s.setDisplay fb).redraw = true := rfl
@[simp] theorem State.key_setDisplay (s : State) (fb : FrameBuffer) : (s.setDisplay fb).key = s.key := rfl
@[simp] theorem State.fault_setDisplay (s : State) (fb : FrameBuffer) : (s.setDisplay fb).fault = s.fault := rfl
@[simp] theorem State.params_setDisplay (s : State) (fb : FrameBuffer) : (s.setDisplay fb).params = s.params := rfl
@[simp] theorem State.draws_setDisplay (s : State) (fb : FrameBuffer) : (s.setDisplay fb).draws = s.draws := rfl

/-! ## countDraw -/

@[simp] theorem State.v_countDraw (s : State) : (s.countDraw).v = s.v := rfl
@[simp] theorem State.i_countDraw (s : State) : (s.countDraw).i = s.i := rfl
@[simp] theorem State.pc_countDraw (s : State) : (s.countDraw).pc = s.pc := rfl
@[simp] theorem State.stack_countDraw (s : State) : (s.countDraw).stack = s.stack := rfl
@[simp] theorem State.sp_countDraw (s : State) : (s.countDraw).sp = s.sp := rfl
@[simp] theorem State.dt_countDraw (s : State) : (s.countDraw).dt = s.dt := rfl
@[simp] theorem State.st_countDraw (s : State) : (s.countDraw).st = s.st := rfl
@[simp] theorem State.mem_countDraw (s : State) : (s.countDraw).mem = s.mem := rfl
@[simp] theorem State.fb_countDraw (s : State) : (s.countDraw).fb = s.fb := rfl
@[simp] theorem State.redraw_countDraw (s : State) : (s.countDraw).redraw = s.redraw := rfl
@[simp] theorem State.key_countDraw (s : State) : (s.countDraw).key = s.key := rfl
@[simp] theorem State.fault_countDraw (s : State) : (s.countDraw).fault = s.fault := rfl
@[simp] theorem State.params_countDraw (s : State) : (s.countDraw).params = s.params := rfl
@[simp] theorem State.draws_countDraw (s : State) : (s.countDraw).draws = s.draws + 1 := rfl

/-! ## setFault -/

@[simp] theorem State.v_setFault (s : State) (f : Fault) : (s.setFault f).v = s.v := rfl
@[simp] theorem State.i_setFault (s : State) (f : Fault) : (s.setFault f).i = s.i := rfl
@[simp] theorem State.pc_setFault (s : State) (f : Fault) : (s.setFault f).pc = s.pc := rfl
@[simp] theorem State.stack_setFault (s : State) (f : Fault) : (s.setFault f).stack = s.stack := rfl
@[simp] theorem State.sp_setFault (s : State) (f : Fault) : (s.setFault f).sp = s.sp := rfl
@[simp] theorem State.dt_setFault (s : State) (f : Fault) : (s.setFault f).dt = s.dt := rfl
@[simp] theorem State.st_setFault (s : State) (f : Fault) : (s.setFault f).st = s.st := rfl
@[simp] theorem State.mem_setFault (s : State) (f : Fault) : (s.setFault f).mem = s.mem := rfl
@[simp] theorem State.fb_setFault (s : State) (f : Fault) : (s.setFault f).fb = s.fb := rfl
@[simp] theorem State.redraw_setFault (s : State) (f : Fault) : (s.setFault f).redraw = s.redraw := rfl
@[simp] theorem State.key_setFault (s : State) (f : Fault) : (s.setFault f).key = s.key := rfl
@[simp] theorem State.fault_setFault (s : State) (f : Fault) : (s.setFault f).fault = some f := rfl
@[simp] theorem State.params_setFault (s : State) (f : Fault) : (s.setFault f).params = s.params := rfl
@[simp] theorem State.draws_setFault (s : State) (f : Fault) : (s.setFault f).draws = s.draws := rfl

/-! ## setByte -/

@[simp] theorem State.v_setByte (s : State) (a : Nat) (b : Byte) : (s.setByte a b).v = s.v := rfl
@[simp] theorem State.i_setByte (s : State) (a : Nat) (b : Byte) : (s.setByte a b).i = s.i := rfl
@[simp] theorem State.pc_setByte (s : State) (a : Nat) (b : Byte) : (s.setByte a b).pc = s.pc := rfl
@[simp] theorem State.stack_setByte (s : State) (a : Nat) (b : Byte) : (s.setByte a b).stack = s.stack := rfl
@[simp] theorem State.sp_setByte (s : State) (a : Nat) (b : Byte) : (s.setByte a b).sp = s.sp := rfl
@[simp] theorem State.dt_setByte (s : State) (a : Nat) (b : Byte) : (s.setByte a b).dt = s.dt := rfl
@[simp] theorem State.st_setByte (s : State) (a : Nat) (b : Byte) : (s.setByte a b).st = s.st := rfl
@[simp] theorem State.mem_setByte (s : State) (a : Nat) (b : Byte) : (s.setByte a b).mem = Memory.write s.params.fontTable s.mem a b := rfl
@[simp] theorem State.fb_setByte (s : State) (a : Nat) (b : Byte) : (s.setByte a b).fb = s.fb := rfl
@[simp] theorem State.redraw_setByte (s : State) (a : Nat) (b : Byte) : (s.setByte a b).redraw = s.redraw := rfl
@[simp] theorem State.key_setByte (s : State) (a : Nat) (b : Byte) : (s.setByte a b).key = s.key := rfl
@[simp] theorem State.fault_setByte (s : State) (a : Nat) (b : Byte) : (s.setByte a b).fault = s.fault := rfl
@[simp] theorem State.params_setByte (s : State) (a : Nat) (b : Byte) : (s.setByte a b).params = s.params := rfl
@[simp] theorem State.draws_setByte (s : State) (a : Nat) (b : Byte) : (s.setByte a b).draws = s.draws := rfl

/-! ## Host operations -/

@[simp] theorem State.v_tick (s : State) : (tick s).v = s.v := rfl
@[simp] theorem State.i_tick (s : State) : (tick s).i = s.i := rfl
@[simp] theorem State.pc_tick (s : State) : (tick s).pc = s.pc := rfl
@[simp] theorem State.stack_tick (s : State) : (tick s).stack = s.stack := rfl
@[simp] theorem State.sp_tick (s : State) : (tick s).sp = s.sp := rfl
@[simp] theorem State.dt_tick (s : State) : (tick s).dt = countDown s.dt := rfl
@[simp] theorem State.st_tick (s : State) : (tick s).st = countDown s.st := rfl
@[simp] theorem State.mem_tick (s : State) : (tick s).mem = s.mem := rfl
@[simp] theorem State.fb_tick (s : State) : (tick s).fb = s.fb := rfl
@[simp] theorem State.redraw_tick (s : State) : (tick s).redraw = s.redraw := rfl
@[simp] theorem State.key_tick (s : State) : (tick s).key = s.key := rfl
@[simp] theorem State.fault_tick (s : State) : (tick s).fault = s.fault := rfl
@[simp] theorem State.params_tick (s : State) : (tick s).params = s.params := rfl
@[simp] theorem State.draws_tick (s : State) : (tick s).draws = s.draws := rfl

@[simp] theorem State.v_setKeys (s : State) (k : Keypad) : (setKeys k s).v = s.v := rfl
@[simp] theorem State.i_setKeys (s : State) (k : Keypad) : (setKeys k s).i = s.i := rfl
@[simp] theorem State.pc_setKeys (s : State) (k : Keypad) : (setKeys k s).pc = s.pc := rfl
@[simp] theorem State.stack_setKeys (s : State) (k : Keypad) : (setKeys k s).stack = s.stack := rfl
@[simp] theorem State.sp_setKeys (s : State) (k : Keypad) : (setKeys k s).sp = s.sp := rfl
@[simp] theorem State.dt_setKeys (s : State) (k : Keypad) : (setKeys k s).dt = s.dt := rfl
@[simp] theorem State.st_setKeys (s : State) (k : Keypad) : (setKeys k s).st = s.st := rfl
@[simp] theorem State.mem_setKeys (s : State) (k : Keypad) : (setKeys k s).mem = s.mem := rfl
@[simp] theorem State.fb_setKeys (s : State) (k : Keypad) : (setKeys k s).fb = s.fb := rfl
@[simp] theorem State.redraw_setKeys (s : State) (k : Keypad) : (setKeys k s).redraw = s.redraw := rfl
@[simp] theorem State.key_setKeys (s : State) (k : Keypad) : (setKeys k s).key = k := rfl
@[simp] theorem State.fault_setKeys (s : State) (k : Keypad) : (setKeys k s).fault = s.fault := rfl
@[simp] theorem State.params_setKeys (s : State) (k : Keypad) : (setKeys k s).params = s.params := rfl
@[simp] theorem State.draws_setKeys (s : State) (k : Keypad) : (setKeys k s).draws = s.draws := rfl

@[simp] theorem State.v_clearRedraw (s : State) : (clearRedraw s).v = s.v := rfl
@[simp] theorem State.i_clearRedraw (s : State) : (clearRedraw s).i = s.i := rfl
@[simp] theorem State.pc_clearRedraw (s : State) : (clearRedraw s).pc = s.pc := rfl
@[simp] theorem State.stack_clearRedraw (s : State) : (clearRedraw s).stack = s.stack := rfl
@[simp] theorem State.sp_clearRedraw (s : State) : (clearRedraw s).sp = s.sp := rfl
@[simp] theorem State.dt_clearRedraw (s : State) : (clearRedraw s).dt = s.dt := rfl
@[simp] theorem State.st_clearRedraw (s : State) : (clearRedraw s).st = s.st := rfl
@[simp] theorem State.mem_clearRedraw (s : State) : (clearRedraw s).mem = s.mem := rfl
@[simp] theorem State.fb_clearRedraw (s : State) : (clearRedraw s).fb = s.fb := rfl
@[simp] theorem State.redraw_clearRedraw (s : State) : (clearRedraw s).redraw = false := rfl
@[simp] theorem State.key_clearRedraw (s : State) : (clearRedraw s).key = s.key := rfl
@[simp] theorem State.fault_clearRedraw (s : State) : (clearRedraw s).fault = s.fault := rfl
@[simp] theorem State.params_clearRedraw (s : State) : (clearRedraw s).params = s.params := rfl
@[simp] theorem State.draws_clearRedraw (s : State) : (clearRedraw s).draws = s.draws := rfl

@[simp] theorem State.v_initCore (s : State) : (initCore s).v = Vector.replicate 16 0 := rfl
@[simp] theorem State.i_initCore (s : State) : (initCore s).i = 0 := rfl
@[simp] theorem State.pc_initCore (s : State) : (initCore s).pc = 0x200#16 := rfl
@[simp] theorem State.stack_initCore (s : State) : (initCore s).stack = Vector.replicate stackDepth 0 := rfl
@[simp] theorem State.sp_initCore (s : State) : (initCore s).sp = 0 := rfl
@[simp] theorem State.dt_initCore (s : State) : (initCore s).dt = 0 := rfl
@[simp] theorem State.st_initCore (s : State) : (initCore s).st = 0 := rfl
@[simp] theorem State.mem_initCore (s : State) : (initCore s).mem = [] := rfl
@[simp] theorem State.fb_initCore (s : State) : (initCore s).fb = Vector.replicate fbH 0 := rfl
@[simp] theorem State.redraw_initCore (s : State) : (initCore s).redraw = true := rfl
@[simp] theorem State.key_initCore (s : State) : (initCore s).key = 0 := rfl
@[simp] theorem State.fault_initCore (s : State) : (initCore s).fault = none := rfl
@[simp] theorem State.params_initCore (s : State) : (initCore s).params = s.params := rfl
@[simp] theorem State.draws_initCore (s : State) : (initCore s).draws = s.draws := rfl

end Sys2Proof.Machine
end

