-- ==== Sys2Proof/Laws/Display.lean ====
section
/-! SUPPORT. The framebuffer's pixels, the sprite's pixel list, and what a draw does (R101-R106). -/

namespace Sys2Proof.Machine

@[simp] theorem pixelAt_blank (n : Nat) : pixelAt blankScreen n = false := by
  unfold pixelAt blankScreen
  split <;> simp

/-- A framebuffer is its pixels. -/
theorem frameBuffer_ext {fb fb' : FrameBuffer} (h : ∀ n, pixelAt fb n = pixelAt fb' n) : fb = fb' := by
  refine Vector.ext fun y hy => BitVec.eq_of_getLsbD_eq fun x hx => ?_
  have e1 : (x + 64 * y) / 64 = y := by simp only [fbW] at hx; omega
  have e2 : (x + 64 * y) % 64 = x := by simp only [fbW] at hx; omega
  have hp := h (x + 64 * y)
  simp only [pixelAt, fbW, e1, e2, dif_pos hy] at hp
  exact hp

/-- A canvas is its pixels and its collision. -/
theorem Canvas.eq_of {cv cv' : Canvas} (h : ∀ n, pixelAt cv.fb n = pixelAt cv'.fb n) (hh : cv.hit = cv'.hit) : cv = cv' := by
  obtain ⟨fb, hit⟩ := cv
  obtain ⟨fb', hit'⟩ := cv'
  cases frameBuffer_ext h
  cases hh
  rfl

/-- Flipping one pixel changes that pixel and no other. -/
theorem pixelAt_flipPixel (fb : FrameBuffer) (n m : Nat) (hn : n < fbW * fbH) :
    pixelAt (flipPixel fb n) m = (pixelAt fb m ^^ decide (m = n)) := by
  have hn' : n / fbW < fbH := by simp only [fbW, fbH] at hn ⊢; omega
  unfold pixelAt flipPixel
  rw [dif_pos hn']
  by_cases hm : m / fbW < fbH
  · rw [dif_pos hm, dif_pos hm, Vector.getElem_set]
    by_cases hrow : n / fbW = m / fbW
    · have hx : m % fbW < 64 := Nat.mod_lt _ (by decide)
      have hmn : decide (m = n) = decide (m % fbW = n % fbW) := by
        simp only [fbW] at hrow ⊢
        congr 1
        apply propext
        constructor
        · intro h; rw [h]
        · intro h; omega
      rw [if_pos hrow, BitVec.getLsbD_xor, BitVec.getLsbD_shiftLeft, hmn]
      simp only [hrow]
      congr 1
      by_cases he : m % fbW = n % fbW
      · simp [he]
        rw [he] at hx; simpa using hx
      · by_cases hl : m % fbW < n % fbW
        · simp [hl, he]
        · have : m % fbW - n % fbW ≠ 0 := by omega
          simp [he, hl, BitVec.getLsbD_one, this]
    · have : m ≠ n := fun e => hrow (by rw [e])
      simp [hrow, this]
  · have : m ≠ n := fun e => hm (by rw [e]; exact hn')
    simp [hm, this]

/-- Pixel indexes the engine computes lie on the screen (R102). -/
theorem pixelIndex_lt {edge : DrawEdge} {x0 y0 c r n : Nat} (h : pixelIndex edge x0 y0 c r = some n) : n < fbW * fbH := by
  cases edge with
  | wrap =>
    simp only [pixelIndex, Option.some.injEq] at h
    have h1 : (x0 + c) % fbW < fbW := Nat.mod_lt _ (by decide)
    have h2 : (y0 + r) % fbH < fbH := Nat.mod_lt _ (by decide)
    simp only [fbW, fbH] at *
    omega
  | clip =>
    simp only [pixelIndex] at h
    split at h
    · next hc => simp only [Option.some.injEq] at h; simp only [fbW, fbH] at *; omega
    · cases h

theorem mem_rowPixels {edge : DrawEdge} {x0 y0 r n : Nat} {b : Byte} :
    n ∈ rowPixels edge x0 y0 r b ↔ ∃ c, c < 8 ∧ spriteBit b c = true ∧ pixelIndex edge x0 y0 c r = some n := by
  simp only [rowPixels, List.mem_filterMap, List.mem_range]
  constructor
  · rintro ⟨c, hc, h⟩
    split at h
    · next hb => exact ⟨c, hc, hb, h⟩
    · cases h
  · rintro ⟨c, hc, hb, h⟩
    exact ⟨c, hc, by simp [hb, h]⟩

/-- The pixels a sprite addresses: those of its set bits (R104). -/
theorem mem_spritePixels {edge : DrawEdge} {x0 y0 : Nat} (rows : List Byte) {r n : Nat} :
    n ∈ spritePixels edge x0 y0 r rows ↔
      ∃ k c, ∃ h : k < rows.length, c < 8 ∧ spriteBit rows[k] c = true ∧ pixelIndex edge x0 y0 c (r + k) = some n := by
  induction rows generalizing r with
  | nil => simp [spritePixels]
  | cons b rest ih =>
    simp only [spritePixels, List.mem_append, mem_rowPixels, ih]
    constructor
    · rintro (⟨c, hc, hb, h⟩ | ⟨k, c, hk, hc, hb, h⟩)
      · exact ⟨0, c, by simp, hc, by simpa using hb, by simpa using h⟩
      · exact ⟨k + 1, c, by simpa using hk, hc, by simpa using hb, by rw [← h]; congr 1; omega⟩
    · rintro ⟨k, c, hk, hc, hb, h⟩
      cases k with
      | zero => exact .inl ⟨c, hc, by simpa using hb, by simpa using h⟩
      | succ k =>
        exact .inr ⟨k, c, by simpa using hk, hc, by simpa using hb, by rw [← h]; congr 1; omega⟩

/-- Two set bits of a sprite of at most 32 rows and 8 columns never land on one pixel (R106a). -/
theorem pixelIndex_inj {edge : DrawEdge} {x0 y0 c r c' r' n : Nat} (hc : c < 8) (hc' : c' < 8) (hr : r < 32) (hr' : r' < 32)
    (h : pixelIndex edge x0 y0 c r = some n) (h' : pixelIndex edge x0 y0 c' r' = some n) : c = c' ∧ r = r' := by
  cases edge with
  | wrap =>
    simp only [pixelIndex, Option.some.injEq, fbW, fbH] at h h'
    omega
  | clip =>
    simp only [pixelIndex, fbW, fbH] at h h'
    split at h
    · split at h'
      · simp only [Option.some.injEq] at h h'; omega
      · cases h'
    · cases h

theorem rowPixels_nodup {edge : DrawEdge} {x0 y0 r : Nat} (b : Byte) (hr : r < 32) : (rowPixels edge x0 y0 r b).Nodup := by
  unfold rowPixels List.Nodup
  rw [List.pairwise_filterMap]
  refine List.Pairwise.imp_of_mem ?_ (List.nodup_range (n := 8))
  intro c c' hc hc' hne n hn n' hn' e
  subst e
  rw [List.mem_range] at hc hc'
  split at hn
  · split at hn'
    · exact hne (pixelIndex_inj hc hc' hr hr hn hn').1
    · cases hn'
  · cases hn

/-- The pixels a single draw touches are pairwise distinct (R106a). -/
theorem spritePixels_nodup {edge : DrawEdge} {x0 y0 : Nat} (rows : List Byte) (r : Nat) (h : r + rows.length ≤ 32) :
    (spritePixels edge x0 y0 r rows).Nodup := by
  induction rows generalizing r with
  | nil => simp [spritePixels]
  | cons b rest ih =>
    simp only [List.length_cons] at h
    rw [spritePixels, List.nodup_append]
    refine ⟨rowPixels_nodup b (by omega), ih (r + 1) (by omega), ?_⟩
    intro n hn m hm e
    subst e
    obtain ⟨c, hc, -, h1⟩ := mem_rowPixels.mp hn
    obtain ⟨k, c', hk, hc', -, h2⟩ := (mem_spritePixels rest).mp hm
    have := (pixelIndex_inj hc hc' (by omega) (by omega) h1 h2).2
    omega

theorem spritePixels_lt {edge : DrawEdge} {x0 y0 r n : Nat} {rows : List Byte} (h : n ∈ spritePixels edge x0 y0 r rows) :
    n < fbW * fbH := by
  obtain ⟨k, c, _, _, _, h⟩ := (mem_spritePixels rows).mp h
  exact pixelIndex_lt h

/-- Plotting distinct pixels XORs each of them once, and reports a collision exactly when one of them was set. -/
theorem plotAll_spec (ns : List Nat) (cv : Canvas) (hd : ns.Nodup) (hl : ∀ n ∈ ns, n < fbW * fbH) :
    (∀ m, pixelAt (cv.plotAll ns).fb m = (pixelAt cv.fb m ^^ decide (m ∈ ns))) ∧
    (cv.plotAll ns).hit = (cv.hit || ns.any (fun n => pixelAt cv.fb n)) := by
  induction ns generalizing cv with
  | nil => simp [Canvas.plotAll]
  | cons n rest ih =>
    rw [List.nodup_cons] at hd
    obtain ⟨ih1, ih2⟩ := ih (cv.plot n) hd.2 (fun m hm => hl m (List.mem_cons_of_mem _ hm))
    have hn := hl n List.mem_cons_self
    have hpx : ∀ m, pixelAt (cv.plot n).fb m = (pixelAt cv.fb m ^^ decide (m = n)) := fun m => pixelAt_flipPixel cv.fb n m hn
    rw [Canvas.plotAll]
    constructor
    · intro m
      rw [ih1, hpx]
      by_cases hm : m = n
      · subst hm; simp [hd.1]
      · simp [hm]
    · have hany : rest.any (fun m => pixelAt (cv.plot n).fb m) = rest.any (fun m => pixelAt cv.fb m) := by
        apply Bool.eq_iff_iff.mpr
        simp only [List.any_eq_true, hpx]
        constructor <;> rintro ⟨m, hm, h⟩ <;> refine ⟨m, hm, ?_⟩ <;>
          (have : m ≠ n := fun e => hd.1 (e ▸ hm)
           simp_all)
      rw [ih2, hany]
      simp [Canvas.plot, Bool.or_assoc]

/-- The engine (R104): every addressed pixel is XORed once, and a collision is reported when one was set. -/
theorem drawSprite_spec (edge : DrawEdge) (x0 y0 : Nat) (rows : List Byte) (fb : FrameBuffer) (h : rows.length ≤ 32) :
    (∀ m, pixelAt (drawSprite edge x0 y0 rows fb).fb m = (pixelAt fb m ^^ decide (m ∈ spritePixels edge x0 y0 0 rows))) ∧
    ((drawSprite edge x0 y0 rows fb).hit = true ↔ ∃ n ∈ spritePixels edge x0 y0 0 rows, pixelAt fb n = true) := by
  have := plotAll_spec (spritePixels edge x0 y0 0 rows) ⟨fb, false⟩ (spritePixels_nodup rows 0 (by omega))
    (fun n hn => spritePixels_lt hn)
  exact ⟨this.1, by unfold drawSprite; rw [this.2]; simp⟩

/-- The write of VF after a draw touches VF alone. -/
theorem State.writeCollision_eq_v (s : State) (hit : Bool) : s.writeCollision hit = { s with v := (s.writeCollision hit).v } := by
  unfold State.writeCollision
  cases s.params.drawVfClear <;> cases hit <;> rfl

end Sys2Proof.Machine
end

