-- ==== Sys2Proof/Laws/Encoding.lean ====
section
/-! SUPPORT. The fields of a word and the words of the formats as numbers (R51, R52): with these every claim about
the encoding is arithmetic. -/

namespace Sys2Proof

/-! ## Fields -/

theorem fieldT_eq (w : Word) : fieldT w = w.toNat / 4096 := by
  have := w.isLt
  simp only [fieldT, BitVec.extractLsb'_toNat, Nat.shiftRight_eq_div_pow]; omega

theorem fieldX_val (w : Word) : (fieldX w).val = w.toNat / 256 % 16 := by
  simp only [fieldX, BitVec.val_toFin, BitVec.extractLsb'_toNat, Nat.shiftRight_eq_div_pow]

theorem fieldY_val (w : Word) : (fieldY w).val = w.toNat / 16 % 16 := by
  simp only [fieldY, BitVec.val_toFin, BitVec.extractLsb'_toNat, Nat.shiftRight_eq_div_pow]

theorem fieldN_eq (w : Word) : fieldN w = w.toNat % 16 := by
  simp only [fieldN, BitVec.extractLsb'_toNat, Nat.shiftRight_eq_div_pow]; omega

theorem fieldNN_toNat (w : Word) : (fieldNN w).toNat = w.toNat % 256 := by
  simp only [fieldNN, BitVec.extractLsb'_toNat, Nat.shiftRight_eq_div_pow]; omega

theorem fieldNNN_toNat (w : Word) : (fieldNNN w).toNat = w.toNat % 4096 := by
  simp only [fieldNNN, BitVec.extractLsb'_toNat, Nat.shiftRight_eq_div_pow]; omega

/-! ## Bytes of a word -/

theorem hiByte_toNat (w : Word) : (hiByte w).toNat = w.toNat / 256 := by
  have := w.isLt
  simp only [hiByte, BitVec.extractLsb'_toNat, Nat.shiftRight_eq_div_pow]; omega

theorem loByte_toNat (w : Word) : (loByte w).toNat = w.toNat % 256 := by
  simp only [loByte, BitVec.extractLsb'_toNat, Nat.shiftRight_eq_div_pow]; omega

/-- An append is the sum of its parts at their places. -/
theorem toNat_append_eq {m n : Nat} (a : BitVec m) (b : BitVec n) : (a ++ b).toNat = a.toNat * 2 ^ n + b.toNat := by
  rw [BitVec.toNat_append, ← Nat.shiftLeft_add_eq_or_of_lt b.isLt, Nat.shiftLeft_eq]

theorem wordOfBytes_toNat (hi lo : Byte) : (wordOfBytes hi lo).toNat = hi.toNat * 256 + lo.toNat :=
  toNat_append_eq hi lo

/-- Splitting a word into its bytes and putting them together again. -/
theorem wordOfBytes_hi_lo (w : Word) : wordOfBytes (hiByte w) (loByte w) = w := by
  apply BitVec.eq_of_toNat_eq
  rw [wordOfBytes_toNat, hiByte_toNat, loByte_toNat]; omega

/-! ## Formats -/

theorem encodeA_toNat (t : BitVec 4) (nnn : Addr) : (encodeA t nnn).toNat = t.toNat * 4096 + nnn.toNat :=
  toNat_append_eq t nnn

theorem encodeXNN_toNat (t : BitVec 4) (x : Reg) (nn : Byte) :
    (encodeXNN t x nn).toNat = t.toNat * 4096 + x.val * 256 + nn.toNat := by
  have h : (encodeXNN t x nn).toNat = (t ++ (BitVec.ofFin x : BitVec 4)).toNat * 2 ^ 8 + nn.toNat := toNat_append_eq _ _
  have h1 : (t ++ (BitVec.ofFin x : BitVec 4)).toNat = t.toNat * 2 ^ 4 + x.val := toNat_append_eq _ _
  rw [h, h1]; ring

theorem encodeXYN_toNat (t : BitVec 4) (x y : Reg) (n : BitVec 4) :
    (encodeXYN t x y n).toNat = t.toNat * 4096 + x.val * 256 + y.val * 16 + n.toNat := by
  have h : (encodeXYN t x y n).toNat = (t ++ (BitVec.ofFin x : BitVec 4) ++ (BitVec.ofFin y : BitVec 4)).toNat * 2 ^ 4 + n.toNat :=
    toNat_append_eq _ _
  have h1 : (t ++ (BitVec.ofFin x : BitVec 4) ++ (BitVec.ofFin y : BitVec 4)).toNat =
      (t ++ (BitVec.ofFin x : BitVec 4)).toNat * 2 ^ 4 + y.val := toNat_append_eq _ _
  have h2 : (t ++ (BitVec.ofFin x : BitVec 4)).toNat = t.toNat * 2 ^ 4 + x.val := toNat_append_eq _ _
  rw [h, h1, h2]; ring

/-! ## The fields of an encoded word -/

theorem fieldT_encodeA (t : BitVec 4) (nnn : Addr) : fieldT (encodeA t nnn) = t.toNat := by
  have := nnn.isLt; rw [fieldT_eq, encodeA_toNat]; omega

theorem fieldNNN_encodeA (t : BitVec 4) (nnn : Addr) : fieldNNN (encodeA t nnn) = nnn := by
  have := nnn.isLt; apply BitVec.eq_of_toNat_eq; rw [fieldNNN_toNat, encodeA_toNat]; omega

theorem fieldT_encodeXNN (t : BitVec 4) (x : Reg) (nn : Byte) : fieldT (encodeXNN t x nn) = t.toNat := by
  have := x.isLt; have := nn.isLt; rw [fieldT_eq, encodeXNN_toNat]; omega

theorem fieldX_encodeXNN (t : BitVec 4) (x : Reg) (nn : Byte) : fieldX (encodeXNN t x nn) = x := by
  have := x.isLt; have := nn.isLt; apply Fin.ext; rw [fieldX_val, encodeXNN_toNat]; omega

theorem fieldNN_encodeXNN (t : BitVec 4) (x : Reg) (nn : Byte) : fieldNN (encodeXNN t x nn) = nn := by
  have := nn.isLt; apply BitVec.eq_of_toNat_eq; rw [fieldNN_toNat, encodeXNN_toNat]; omega

theorem fieldT_encodeXYN (t : BitVec 4) (x y : Reg) (n : BitVec 4) : fieldT (encodeXYN t x y n) = t.toNat := by
  have := x.isLt; have := y.isLt; have := n.isLt; rw [fieldT_eq, encodeXYN_toNat]; omega

theorem fieldX_encodeXYN (t : BitVec 4) (x y : Reg) (n : BitVec 4) : fieldX (encodeXYN t x y n) = x := by
  have := x.isLt; have := y.isLt; have := n.isLt; apply Fin.ext; rw [fieldX_val, encodeXYN_toNat]; omega

theorem fieldY_encodeXYN (t : BitVec 4) (x y : Reg) (n : BitVec 4) : fieldY (encodeXYN t x y n) = y := by
  have := y.isLt; have := n.isLt; apply Fin.ext; rw [fieldY_val, encodeXYN_toNat]; omega

theorem fieldN_encodeXYN (t : BitVec 4) (x y : Reg) (n : BitVec 4) : fieldN (encodeXYN t x y n) = n.toNat := by
  have := n.isLt; rw [fieldN_eq, encodeXYN_toNat]; omega

end Sys2Proof
end

