-- ==== Sys2Proof/Laws/Memory.lean ====
section
/-! SUPPORT. The memory list keeps its canonical form; reads after writes; the block accesses and their checks. -/

namespace Sys2Proof.Machine

variable {font : Vector Byte fontSize}

/-! ## One byte -/

theorem Memory.read_consCell_same (m : Memory) (a : Nat) (v : Byte) (h : Memory.read font m a = resetByte font a) :
    Memory.read font (Memory.consCell font a v m) a = v := by
  unfold Memory.consCell
  split
  · next hv => rw [h, hv]
  · simp [Memory.read]

theorem Memory.read_consCell_other (m : Memory) {a b : Nat} (v : Byte) (h : b ≠ a) :
    Memory.read font (Memory.consCell font a v m) b = Memory.read font m b := by
  unfold Memory.consCell
  split
  · rfl
  · simp [Memory.read, Ne.symm h]

/-- An address below the first listed one reads as its reset content. -/
theorem Memory.read_of_lt_wfFrom {m : Memory} {lo a : Nat} (h : Memory.wfFrom font lo m = true) (ha : a < lo) :
    Memory.read font m a = resetByte font a := by
  induction m generalizing lo with
  | nil => rfl
  | cons c rest ih =>
    obtain ⟨b, w⟩ := c
    simp only [Memory.wfFrom, Bool.and_eq_true, decide_eq_true_eq] at h
    have : b ≠ a := by omega
    simp only [Memory.read, this, if_false]
    exact ih h.2 (by omega)

theorem Memory.wfFrom_mono {m : Memory} {lo lo' : Nat} (h : Memory.wfFrom font lo m = true) (hl : lo' ≤ lo) :
    Memory.wfFrom font lo' m = true := by
  cases m with
  | nil => rfl
  | cons c rest =>
    simp only [Memory.wfFrom, Bool.and_eq_true, decide_eq_true_eq] at h ⊢
    exact ⟨⟨⟨by omega, h.1.1.2⟩, h.1.2⟩, h.2⟩

theorem Memory.read_insert_other (m : Memory) {a b : Nat} (v : Byte) (h : b ≠ a) :
    Memory.read font (Memory.insert font m a v) b = Memory.read font m b := by
  induction m with
  | nil => simp [Memory.insert, Memory.read_consCell_other, h]
  | cons c rest ih =>
    obtain ⟨d, w⟩ := c
    simp only [Memory.insert]
    split
    · rw [Memory.read_consCell_other _ _ h]
    · split
      · next hd => subst hd; rw [Memory.read_consCell_other _ _ h]; simp [Memory.read, Ne.symm h]
      · simp only [Memory.read, ih]

theorem Memory.read_insert_same {m : Memory} {lo : Nat} (hm : Memory.wfFrom font lo m = true) (a : Nat) (v : Byte) :
    Memory.read font (Memory.insert font m a v) a = v := by
  induction m generalizing lo with
  | nil => exact Memory.read_consCell_same _ _ _ rfl
  | cons c rest ih =>
    obtain ⟨b, w⟩ := c
    have hm' := hm
    simp only [Memory.wfFrom, Bool.and_eq_true, decide_eq_true_eq] at hm
    simp only [Memory.insert]
    split
    · next hlt =>
      refine Memory.read_consCell_same _ _ _ ?_
      refine Memory.read_of_lt_wfFrom (lo := b) ?_ hlt
      simp only [Memory.wfFrom, Bool.and_eq_true, decide_eq_true_eq]
      exact ⟨⟨⟨le_refl b, hm.1.1.2⟩, hm.1.2⟩, hm.2⟩
    · split
      · next heq =>
        subst heq
        exact Memory.read_consCell_same _ _ _ (Memory.read_of_lt_wfFrom hm.2 (by omega))
      · next hne =>
        have : b ≠ a := fun e => hne e.symm
        simp only [Memory.read, this, if_false]
        exact ih hm.2

theorem Memory.wfFrom_consCell {m : Memory} {lo a : Nat} (v : Byte) (hm : Memory.wfFrom font (a + 1) m = true)
    (hlo : lo ≤ a) (ha : a < memSize) : Memory.wfFrom font lo (Memory.consCell font a v m) = true := by
  unfold Memory.consCell
  split
  · exact Memory.wfFrom_mono hm (by omega)
  · next hv => simp [Memory.wfFrom, hlo, ha, hv, hm]

theorem Memory.wfFrom_insert {m : Memory} {lo a : Nat} (v : Byte) (hm : Memory.wfFrom font lo m = true)
    (hlo : lo ≤ a) (ha : a < memSize) : Memory.wfFrom font lo (Memory.insert font m a v) = true := by
  induction m generalizing lo with
  | nil => exact Memory.wfFrom_consCell v rfl hlo ha
  | cons c rest ih =>
    obtain ⟨b, w⟩ := c
    have hm' := hm
    simp only [Memory.wfFrom, Bool.and_eq_true, decide_eq_true_eq] at hm
    simp only [Memory.insert]
    split
    · next hlt =>
      refine Memory.wfFrom_consCell v ?_ hlo ha
      simp only [Memory.wfFrom, Bool.and_eq_true, decide_eq_true_eq]
      exact ⟨⟨⟨by omega, hm.1.1.2⟩, hm.1.2⟩, hm.2⟩
    · split
      · next heq => subst heq; exact Memory.wfFrom_consCell v hm.2 hlo ha
      · next h1 h2 =>
        simp only [Memory.wfFrom, Bool.and_eq_true, decide_eq_true_eq]
        exact ⟨hm.1, ih hm.2 (by omega)⟩

/-- Every write keeps the canonical form (log 10). -/
theorem Memory.wf_write {m : Memory} (hm : Memory.wf font m = true) (a : Nat) (v : Byte) :
    Memory.wf font (Memory.write font m a v) = true := by
  unfold Memory.write
  split
  · next ha => exact Memory.wfFrom_insert v hm (Nat.zero_le _) ha
  · exact hm

theorem State.byteAt_setByte_other (s : State) {a b : Nat} (v : Byte) (h : b ≠ a) :
    (s.setByte a v).byteAt b = s.byteAt b := by
  simp only [State.byteAt, State.setByte, Memory.write]
  split
  · exact Memory.read_insert_other _ _ h
  · rfl

theorem State.byteAt_setByte_same (s : State) (hs : Memory.wf s.params.fontTable s.mem = true) {a : Nat} (v : Byte)
    (h : a < memSize) : (s.setByte a v).byteAt a = v := by
  simp only [State.byteAt, State.setByte, Memory.write, h, if_true]
  exact Memory.read_insert_same hs a v

theorem State.wf_setByte {s : State} (hs : Memory.wf s.params.fontTable s.mem = true) (a : Nat) (v : Byte) :
    Memory.wf (s.setByte a v).params.fontTable (s.setByte a v).mem = true := Memory.wf_write hs a v

/-- Reset and initialize list nothing, whatever the font table. -/
theorem State.wf_resetWith (p : Params) (n : Nat) : Memory.wf (State.resetWith p n).params.fontTable (State.resetWith p n).mem = true := rfl

theorem State.wf_reset : Memory.wf State.reset.params.fontTable State.reset.mem = true := rfl

/-- Memory reads depend on the fields `mem` and `params` alone. -/
theorem State.byteAt_congr {s t : State} (hm : t.mem = s.mem) (hp : t.params = s.params) (a : Nat) :
    t.byteAt a = s.byteAt a := by
  simp [State.byteAt, hm, hp]

@[simp] theorem State.byteAt_setReg (s : State) (x : Reg) (b : Byte) (a : Nat) : (s.setReg x b).byteAt a = s.byteAt a := rfl
@[simp] theorem State.byteAt_setIndex (s : State) (w : Word) (a : Nat) : (s.setIndex w).byteAt a = s.byteAt a := rfl
@[simp] theorem State.byteAt_setPc (s : State) (w : Word) (a : Nat) : (s.setPc w).byteAt a = s.byteAt a := rfl
@[simp] theorem State.byteAt_advance (s : State) (a : Nat) : s.advance.byteAt a = s.byteAt a := rfl
@[simp] theorem State.byteAt_skipIf (s : State) (c : Bool) (a : Nat) : (s.skipIf c).byteAt a = s.byteAt a := rfl
@[simp] theorem State.byteAt_setDelay (s : State) (b : Byte) (a : Nat) : (s.setDelay b).byteAt a = s.byteAt a := rfl
@[simp] theorem State.byteAt_setSound (s : State) (b : Byte) (a : Nat) : (s.setSound b).byteAt a = s.byteAt a := rfl
@[simp] theorem State.byteAt_setDisplay (s : State) (fb : FrameBuffer) (a : Nat) : (s.setDisplay fb).byteAt a = s.byteAt a := rfl
@[simp] theorem State.byteAt_countDraw (s : State) (a : Nat) : s.countDraw.byteAt a = s.byteAt a := rfl
@[simp] theorem State.byteAt_setFault (s : State) (f : Fault) (a : Nat) : (s.setFault f).byteAt a = s.byteAt a := rfl

/-! ## Blocks -/

@[simp] theorem State.bytesAt_length (s : State) (a n : Nat) : (s.bytesAt a n).length = n := by
  induction n generalizing a with
  | zero => rfl
  | succ n ih => simp [State.bytesAt, ih]

theorem State.bytesAt_getElem (s : State) (a n k : Nat) (h : k < (s.bytesAt a n).length) :
    (s.bytesAt a n)[k] = s.byteAt (a + k) := by
  induction n generalizing a k with
  | zero => simp at h
  | succ n ih =>
    cases k with
    | zero => simp [State.bytesAt]
    | succ k => simp only [State.bytesAt, List.getElem_cons_succ, ih]; congr 1; omega

/-- A block write changes memory and nothing else. -/
theorem State.setBytes_eq_mem (bs : List Byte) (s : State) (a : Nat) :
    s.setBytes a bs = { s with mem := (s.setBytes a bs).mem } := by
  induction bs generalizing s a with
  | nil => rfl
  | cons b rest ih =>
    rw [State.setBytes, ih]
    rfl

theorem State.params_setBytes (bs : List Byte) (s : State) (a : Nat) : (s.setBytes a bs).params = s.params := by
  rw [State.setBytes_eq_mem]

/-- Bytes outside the block read as before. -/
theorem State.byteAt_setBytes_other (bs : List Byte) (s : State) {a b : Nat} (h : ¬ (a ≤ b ∧ b < a + bs.length)) :
    (s.setBytes a bs).byteAt b = s.byteAt b := by
  induction bs generalizing s a with
  | nil => rfl
  | cons v rest ih =>
    simp only [List.length_cons] at h
    rw [State.setBytes, ih _ (by omega), State.byteAt_setByte_other _ _ (by omega)]

theorem State.wf_setBytes (bs : List Byte) {s : State} (hs : Memory.wf s.params.fontTable s.mem = true) (a : Nat) :
    Memory.wf s.params.fontTable (s.setBytes a bs).mem = true := by
  induction bs generalizing s a with
  | nil => exact hs
  | cons v rest ih => exact ih (s := s.setByte a v) (State.wf_setByte hs a v) (a + 1)

/-- Bytes of the block read as written. -/
theorem State.byteAt_setBytes_in (bs : List Byte) (s : State) (hs : Memory.wf s.params.fontTable s.mem = true) (a k : Nat)
    (hk : k < bs.length) (hin : a + bs.length ≤ memSize) : (s.setBytes a bs).byteAt (a + k) = bs[k] := by
  induction bs generalizing s a k with
  | nil => simp at hk
  | cons v rest ih =>
    simp only [List.length_cons] at hk hin
    rw [State.setBytes]
    cases k with
    | zero =>
      rw [State.byteAt_setBytes_other _ _ (by omega)]
      exact State.byteAt_setByte_same s hs v (by omega)
    | succ k =>
      have := ih (s.setByte a v) (State.wf_setByte hs a v) (a + 1) k (by omega) (by omega)
      simpa [Nat.add_assoc, Nat.add_comm 1 k] using this

/-! ## The checks of R34-R38 -/

/-- The block check fails at the first address that fails. -/
theorem checkBlock_some_iff (p : Params) (kind : AccessKind) (a n : Nat) (f : Fault) :
    checkBlock p kind a n = some f ↔
      ∃ k, k < n ∧ checkByte p kind (a + k) = some f ∧ ∀ j, j < k → checkByte p kind (a + j) = none := by
  induction n generalizing a with
  | zero => simp [checkBlock]
  | succ n ih =>
    rw [checkBlock]
    cases hc : checkByte p kind a with
    | some g =>
      constructor
      · intro h; exact ⟨0, by omega, by simpa [hc] using h, by omega⟩
      · rintro ⟨k, -, hk, hj⟩
        cases k with
        | zero => simpa [hc] using hk
        | succ k => have := hj 0 (by omega); simp [hc] at this
    | none =>
      simp only [ih]
      constructor
      · rintro ⟨k, hk, h1, h2⟩
        refine ⟨k + 1, by omega, by rw [← h1]; congr 1; omega, fun j hj => ?_⟩
        cases j with
        | zero => simpa using hc
        | succ j => rw [← h2 j (by omega)]; congr 1; omega
      · rintro ⟨k, hk, h1, h2⟩
        cases k with
        | zero => simp [hc] at h1
        | succ k =>
          refine ⟨k, by omega, by rw [← h1]; congr 1; omega, fun j hj => ?_⟩
          rw [← h2 (j + 1) (by omega)]; congr 1; omega

/-- The block check passes where every address does. -/
theorem checkBlock_none_iff (p : Params) (kind : AccessKind) (a n : Nat) :
    checkBlock p kind a n = none ↔ ∀ k, k < n → checkByte p kind (a + k) = none := by
  induction n generalizing a with
  | zero => simp [checkBlock]
  | succ n ih =>
    rw [checkBlock]
    cases hc : checkByte p kind a with
    | some g => simp only [reduceCtorEq, false_iff]; intro h; have := h 0 (by omega); simp [hc] at this
    | none =>
      simp only [ih]
      constructor
      · intro h k hk
        cases k with
        | zero => simpa using hc
        | succ k => rw [← h k (by omega)]; congr 1; omega
      · intro h k hk
        rw [← h (k + 1) (by omega)]; congr 1; omega

theorem checkByte_read (p : Params) (a : Nat) :
    checkByte p .read a = if 0xFFF < a then some (.addressOutOfRange a) else none := by
  simp [checkByte]

/-- A block read is allowed exactly when it lies inside M, or is empty. -/
theorem checkBlock_read_none_iff (p : Params) (a n : Nat) :
    checkBlock p .read a n = none ↔ n = 0 ∨ a + n ≤ memSize := by
  rw [checkBlock_none_iff]
  simp only [checkByte_read]
  constructor
  · intro h
    cases n with
    | zero => exact .inl rfl
    | succ n => have := h n (by omega); simp at this; right; simp only [memSize]; omega
  · rintro (h | h) k hk
    · omega
    · simp only [memSize] at h; simp; omega

/-- A block write is allowed where it lies inside M and outside a guarded font. -/
theorem checkBlock_write_none (p : Params) (a n : Nat) (h1 : a + n ≤ memSize) (h2 : fontSize ≤ a ∨ p.fontWrite = .allow) :
    checkBlock p .write a n = none := by
  rw [checkBlock_none_iff]
  intro k hk
  simp only [memSize, fontSize] at h1 h2
  unfold checkByte
  rw [if_neg (by omega)]
  rcases h2 with h2 | h2
  · rw [if_neg (by omega)]
  · simp [h2]

/-- A passed block write lies inside M (when it is not empty), and outside a guarded font. -/
theorem checkBlock_write_inv {p : Params} {a n : Nat} (h : checkBlock p .write a n = none) (hn : 0 < n) :
    a + n ≤ memSize ∧ (p.fontWrite = .fault → fontSize ≤ a) := by
  rw [checkBlock_none_iff] at h
  constructor
  · have := h (n - 1) (by omega)
    unfold checkByte at this
    by_cases hb : 0xFFF < a + (n - 1)
    · simp [hb] at this
    · simp only [memSize]; omega
  · intro hp
    have := h 0 hn
    unfold checkByte at this
    by_contra hlt
    simp only [fontSize] at hlt
    rw [if_neg (by omega), if_pos (by simp [hp]; omega)] at this
    simp at this

end Sys2Proof.Machine
end

