-- ==== Sys2Proof/Laws/Registers.lean ====
section
/-! SUPPORT. Reads after writes of the V registers, the block register transfers, and the flag write of R68. -/

namespace Sys2Proof.Machine

@[simp] theorem State.reg_setReg_same (s : State) (x : Reg) (b : Byte) : (s.setReg x b).reg x = b := by
  simp [State.reg, State.setReg]

theorem State.reg_setReg_of_ne (s : State) {x y : Reg} (b : Byte) (h : y ≠ x) : (s.setReg x b).reg y = s.reg y := by
  have h' : x.val ≠ y.val := fun e => h (Fin.ext e.symm)
  simp [State.reg, State.setReg, h']

theorem State.reg_setReg (s : State) (x y : Reg) (b : Byte) :
    (s.setReg x b).reg y = if y = x then b else s.reg y := by
  split
  · next h => subst h; exact s.reg_setReg_same y b
  · next h => exact s.reg_setReg_of_ne b h

/-- Registers depend on the field `v` alone. -/
theorem State.reg_congr {s t : State} (h : t.v = s.v) (x : Reg) : t.reg x = s.reg x := by
  simp [State.reg, h]

@[simp] theorem State.reg_setIndex (s : State) (w : Word) (x : Reg) : (s.setIndex w).reg x = s.reg x := rfl
@[simp] theorem State.reg_setPc (s : State) (w : Word) (x : Reg) : (s.setPc w).reg x = s.reg x := rfl
@[simp] theorem State.reg_advance (s : State) (x : Reg) : s.advance.reg x = s.reg x := rfl
@[simp] theorem State.reg_skipIf (s : State) (c : Bool) (x : Reg) : (s.skipIf c).reg x = s.reg x := rfl
@[simp] theorem State.reg_setDelay (s : State) (b : Byte) (x : Reg) : (s.setDelay b).reg x = s.reg x := rfl
@[simp] theorem State.reg_setSound (s : State) (b : Byte) (x : Reg) : (s.setSound b).reg x = s.reg x := rfl
@[simp] theorem State.reg_setDisplay (s : State) (fb : FrameBuffer) (x : Reg) : (s.setDisplay fb).reg x = s.reg x := rfl
@[simp] theorem State.reg_countDraw (s : State) (x : Reg) : s.countDraw.reg x = s.reg x := rfl
@[simp] theorem State.reg_setFault (s : State) (f : Fault) (x : Reg) : (s.setFault f).reg x = s.reg x := rfl
@[simp] theorem State.reg_setByte (s : State) (a : Nat) (b : Byte) (x : Reg) : (s.setByte a b).reg x = s.reg x := rfl

/-! ## The two writes of R68 -/

/-- What `write_fr` leaves in a register: with x other than VF both orders agree; with x = VF the later write stands. -/
theorem State.reg_writeFR (s : State) (x y : Reg) (flag result : Byte) :
    (s.writeFR x flag result).reg y =
      if x = regF ∧ y = regF then (if s.params.vfWriteOrder = .flagThenResult then result else flag)
      else if y = x then result else if y = regF then flag else s.reg y := by
  unfold State.writeFR
  by_cases hx : x = regF <;> by_cases hy : y = regF <;> by_cases hyx : y = x <;>
    cases h : s.params.vfWriteOrder <;> simp_all [State.reg_setReg]

/-- `write_fr` writes registers and nothing else. -/
theorem State.writeFR_eq_v (s : State) (x : Reg) (flag result : Byte) :
    s.writeFR x flag result = { s with v := (s.writeFR x flag result).v } := by
  unfold State.writeFR; cases s.params.vfWriteOrder <;> rfl

/-! ## Register ranges (R99, R100) -/

@[simp] theorem State.regsUpTo_length (s : State) (x : Reg) : (s.regsUpTo x).length = x.val + 1 := by
  simp [State.regsUpTo]

/-- The k-th stored byte is V[k]. -/
theorem State.regsUpTo_getElem (s : State) (x k : Reg) (h : k.val < (s.regsUpTo x).length) :
    (s.regsUpTo x)[k.val] = s.reg k := by
  simp [State.regsUpTo, State.reg]

/-- A register outside the range keeps its value; one inside holds its byte. -/
theorem State.reg_setRegsFrom (bs : List Byte) (s : State) (k : Nat) (y : Reg) :
    (s.setRegsFrom k bs).reg y =
      if h : k ≤ y.val ∧ y.val < k + bs.length then bs[y.val - k]'(by omega) else s.reg y := by
  induction bs generalizing s k with
  | nil => simp [State.setRegsFrom]
  | cons b rest ih =>
    rw [State.setRegsFrom, ih]
    by_cases hy : y.val = k
    · have hk : k < 16 := by omega
      have hyk : y = ⟨k, hk⟩ := Fin.ext hy
      simp [hk, hyk]
    · have hs : ((if h : k < 16 then s.setReg ⟨k, h⟩ b else s)).reg y = s.reg y := by
        split
        · exact s.reg_setReg_of_ne b (fun e => hy (by rw [e]))
        · rfl
      rw [hs]
      by_cases hin : k + 1 ≤ y.val ∧ y.val < k + 1 + rest.length
      · have : k ≤ y.val ∧ y.val < k + (b :: rest).length := by simp; omega
        rw [dif_pos hin, dif_pos this, List.getElem_cons]
        have : y.val - k ≠ 0 := by omega
        simp [this, Nat.sub_sub]
      · have : ¬ (k ≤ y.val ∧ y.val < k + (b :: rest).length) := by simp; omega
        rw [dif_neg hin, dif_neg this]

/-- Loading a register range writes registers and nothing else. -/
theorem State.setRegsFrom_eq_v (bs : List Byte) (s : State) (k : Nat) :
    s.setRegsFrom k bs = { s with v := (s.setRegsFrom k bs).v } := by
  induction bs generalizing s k with
  | nil => rfl
  | cons b rest ih =>
    rw [State.setRegsFrom]
    generalize hs : (if h : k < 16 then s.setReg ⟨k, h⟩ b else s) = s1
    have h1 : s1 = { s with v := s1.v } := by subst hs; split <;> rfl
    rw [ih s1 (k + 1)]
    generalize (s1.setRegsFrom (k + 1) rest).v = w
    rw [h1]

end Sys2Proof.Machine
end

