-- ==== Sys2Proof/Laws/Frames.lean ====
section
/-! SUPPORT. What each shared operation leaves unchanged, as `KeepsAllBut`, and how frames compose. -/

namespace Sys2Proof.Machine

theorem sameIn_refl (p : Piece) (s : State) : sameIn p s s := by
  cases p <;> simp [sameIn]

theorem sameIn_trans {p : Piece} {s t u : State} (h : sameIn p s t) (h' : sameIn p t u) : sameIn p s u := by
  cases p <;> simp_all [sameIn]

theorem KeepsAllBut.refl (s : State) : KeepsAllBut [] [] s s := ⟨fun _ _ => rfl, fun p _ => sameIn_refl p s, rfl⟩

/-- A frame may be widened. -/
theorem KeepsAllBut.mono {rs rs' : List Reg} {ps ps' : List Piece} {s t : State} (h : KeepsAllBut rs ps s t)
    (hr : rs ⊆ rs') (hp : ps ⊆ ps') : KeepsAllBut rs' ps' s t :=
  ⟨fun r h' => h.1 r (fun hin => h' (hr hin)), fun p h' => h.2.1 p (fun hin => h' (hp hin)), h.2.2⟩

/-- Frames of one after another operation compose. -/
theorem KeepsAllBut.trans {rs rs' : List Reg} {ps ps' : List Piece} {s t u : State} (h : KeepsAllBut rs ps s t)
    (h' : KeepsAllBut rs' ps' t u) : KeepsAllBut (rs ++ rs') (ps ++ ps') s u := by
  refine ⟨fun r hr => ?_, fun p hp => ?_, h'.2.2.trans h.2.2⟩
  · rw [List.mem_append, not_or] at hr
    exact (h'.1 r hr.2).trans (h.1 r hr.1)
  · rw [List.mem_append, not_or] at hp
    exact sameIn_trans (h.2.1 p hp.1) (h'.2.1 p hp.2)

/-- A state that differs in V registers only, and there in those of a list. -/
theorem keeps_of_v {rs : List Reg} {s t : State} (h : t = { s with v := t.v }) (hr : ∀ r, r ∉ rs → t.reg r = s.reg r) :
    KeepsAllBut rs [] s t := by
  refine ⟨hr, fun p _ => ?_, by rw [h]⟩
  rw [h]
  cases p <;> simp [sameIn, State.byteAt, State.pixel, State.keyDown]

theorem keeps_setReg (s : State) (x : Reg) (b : Byte) : KeepsAllBut [x] [] s (s.setReg x b) :=
  keeps_of_v rfl (fun _ hr => s.reg_setReg_of_ne b (by simpa using hr))

theorem keeps_writeFR (s : State) (x : Reg) (flag b : Byte) : KeepsAllBut [x, regF] [] s (s.writeFR x flag b) :=
  keeps_of_v (s.writeFR_eq_v x flag b) (fun r hr => by
    simp only [List.mem_cons, List.not_mem_nil, or_false, not_or] at hr
    rw [State.reg_writeFR]
    simp [hr.1, hr.2])

theorem keeps_writeCollision (s : State) (hit : Bool) : KeepsAllBut [regF] [] s (s.writeCollision hit) :=
  keeps_of_v (s.writeCollision_eq_v hit) (fun r hr => by
    simp only [List.mem_cons, List.not_mem_nil, or_false] at hr
    unfold State.writeCollision
    cases s.params.drawVfClear <;> cases hit <;> simp [State.reg_setReg_of_ne _ _ hr])

theorem keeps_setRegsFrom (s : State) (bs : List Byte) (x : Reg) (h : bs.length = x.val + 1) :
    KeepsAllBut ((List.finRange 16).filter (· ≤ x)) [] s (s.setRegsFrom 0 bs) :=
  keeps_of_v (State.setRegsFrom_eq_v bs s 0) (fun r hr => by
    simp only [List.mem_filter, List.mem_finRange, true_and, decide_eq_true_eq, Fin.le_def] at hr
    rw [State.reg_setRegsFrom]
    rw [dif_neg (by omega)])

theorem keeps_setIndex (s : State) (w : Word) : KeepsAllBut [] [.index] s (s.setIndex w) :=
  ⟨fun _ _ => rfl, fun p hp => by cases p <;> simp_all [sameIn, State.pixel, State.keyDown], rfl⟩

theorem keeps_setPc (s : State) (w : Word) : KeepsAllBut [] [] s (s.setPc w) :=
  ⟨fun _ _ => rfl, fun p _ => by cases p <;> simp [sameIn, State.pixel, State.keyDown], rfl⟩

theorem keeps_advance (s : State) : KeepsAllBut [] [] s s.advance := keeps_setPc s _

theorem keeps_skipIf (s : State) (c : Bool) : KeepsAllBut [] [] s (s.skipIf c) := keeps_setPc s _

theorem keeps_setDelay (s : State) (b : Byte) : KeepsAllBut [] [.delay] s (s.setDelay b) :=
  ⟨fun _ _ => rfl, fun p hp => by cases p <;> simp_all [sameIn, State.pixel, State.keyDown], rfl⟩

theorem keeps_setSound (s : State) (b : Byte) : KeepsAllBut [] [.sound] s (s.setSound b) :=
  ⟨fun _ _ => rfl, fun p hp => by cases p <;> simp_all [sameIn, State.pixel, State.keyDown], rfl⟩

theorem keeps_setDisplay (s : State) (fb : FrameBuffer) : KeepsAllBut [] [.pixels, .redraw] s (s.setDisplay fb) :=
  ⟨fun _ _ => rfl, fun p hp => by cases p <;> simp_all [sameIn, State.keyDown], rfl⟩

theorem keeps_countDraw (s : State) : KeepsAllBut [] [.draws] s s.countDraw :=
  ⟨fun _ _ => rfl, fun p hp => by cases p <;> simp_all [sameIn, State.pixel, State.keyDown], rfl⟩

theorem keeps_setFault (s : State) (f : Fault) : KeepsAllBut [] [.fault] s (s.setFault f) :=
  ⟨fun _ _ => rfl, fun p hp => by cases p <;> simp_all [sameIn, State.pixel, State.keyDown], rfl⟩

theorem keeps_setBytes (s : State) (a : Nat) (bs : List Byte) : KeepsAllBut [] [.memory] s (s.setBytes a bs) := by
  rw [State.setBytes_eq_mem]
  exact ⟨fun _ _ => rfl, fun p hp => by cases p <;> simp_all [sameIn, State.pixel, State.keyDown], rfl⟩

/-- Raising a fault is precise (R118). -/
theorem faultsWith_setFault (s : State) (f : Fault) : FaultsWith f s (s.setFault f) :=
  ⟨rfl, rfl, keeps_setFault s f⟩

/-- The push changes the stack alone: the entry at the old depth, and the depth. -/
theorem push_some {s t : State} {w : Word} (h : s.push w = some t) :
    s.sp.val < stackDepth ∧ t.sp.val = s.sp.val + 1 ∧ t.pc = s.pc ∧ t.fault = s.fault ∧
    (∀ k : Fin stackDepth, t.stack[k] = if k.val = s.sp.val then w else s.stack[k]) ∧ KeepsAllBut [] [.stack] s t := by
  unfold State.push at h
  split at h
  · next hlt =>
    cases h
    refine ⟨hlt, rfl, rfl, rfl, fun k => ?_, fun _ _ => rfl, fun p hp => ?_, rfl⟩
    · simp only [Fin.getElem_fin, Vector.getElem_set]
      by_cases hk : s.sp.val = k.val
      · simp [hk]
      · simp [hk, Ne.symm hk]
    · cases p <;> simp_all [sameIn, State.byteAt, State.pixel, State.keyDown]
  · cases h

/-- The push fails at full depth only. -/
theorem push_none {s : State} {w : Word} (h : s.push w = none) : s.sp.val = stackDepth := by
  unfold State.push at h
  split at h
  · cases h
  · have := s.sp.isLt; omega

/-- The pop changes the depth alone, and gives the entry below it. -/
theorem pop_some {s t : State} {w : Word} (h : s.pop = some (w, t)) :
    0 < s.sp.val ∧ t.sp.val = s.sp.val - 1 ∧ t.pc = s.pc ∧ t.fault = s.fault ∧ t.stack = s.stack ∧
    (∀ k : Fin stackDepth, k.val = s.sp.val - 1 → w = s.stack[k]) ∧ KeepsAllBut [] [.stack] s t := by
  unfold State.pop at h
  split at h
  · next hlt =>
    cases h
    refine ⟨hlt, rfl, rfl, rfl, rfl, fun k hk => ?_, fun _ _ => rfl, fun p hp => ?_, rfl⟩
    · simp [hk]
    · cases p <;> simp_all [sameIn, State.byteAt, State.pixel, State.keyDown]
  · cases h

/-- The pop fails on the empty stack only. -/
theorem pop_none {s : State} (h : s.pop = none) : s.sp.val = 0 := by
  unfold State.pop at h
  split at h
  · cases h
  · omega

end Sys2Proof.Machine
end

