-- ==== Sys2Proof/Laws/Step.lean ====
section
/-! SUPPORT. Everything the shared transfers, the fetch and the step can do, said once. -/

namespace Sys2Proof.Machine

/-! ## Block transfers -/

/-- A block read gives the bytes of a readable block, or the first failure. -/
theorem loadBlock_ok_iff (s : State) (a n : Nat) (bs : List Byte) :
    s.loadBlock a n = .ok bs ↔ Readable a n ∧ bs = s.bytesAt a n := by
  unfold State.loadBlock Readable
  rw [← checkBlock_read_none_iff s.params a n]
  split
  · next f hf => simp [hf]
  · next hf => simp [hf, eq_comm]

theorem loadBlock_error {s : State} {a n : Nat} {f : Fault} (h : s.loadBlock a n = .error f) :
    checkBlock s.params .read a n = some f := by
  unfold State.loadBlock at h
  split at h
  · next g hg => cases h; exact hg
  · cases h

/-- A block write that is allowed writes the whole block. -/
theorem storeBlock_ok {s t : State} {a : Nat} {bs : List Byte} (h : s.storeBlock a bs = .ok t) :
    checkBlock s.params .write a bs.length = none ∧ t = s.setBytes a bs := by
  unfold State.storeBlock at h
  split at h
  · cases h
  · next hf => cases h; exact ⟨hf, rfl⟩

theorem storeBlock_error {s : State} {a : Nat} {bs : List Byte} {f : Fault} (h : s.storeBlock a bs = .error f) :
    checkBlock s.params .write a bs.length = some f := by
  unfold State.storeBlock at h
  split at h
  · next g hg => cases h; exact hg
  · cases h

/-- The first failure of a block read past the end of M (R38). -/
theorem checkBlock_read_some (p : Params) (a n : Nat) (hn : 0 < n) (h : memSize < a + n) :
    checkBlock p .read a n = some (.addressOutOfRange (max a memSize)) := by
  rw [checkBlock_some_iff]
  simp only [checkByte_read, memSize] at *
  refine ⟨max a 4096 - a, by omega, ?_, fun j hj => ?_⟩
  · rw [if_pos (by omega)]; congr 2; omega
  · rw [if_neg (by omega)]

/-- The first failure of a block write past the end of M (R38). -/
theorem checkBlock_write_some_range (p : Params) (a n : Nat) (h0 : 0 < n) (hn : n ≤ 16) (h : memSize < a + n) :
    checkBlock p .write a n = some (.addressOutOfRange (max a memSize)) := by
  rw [checkBlock_some_iff]
  simp only [checkByte, memSize] at *
  refine ⟨max a 4096 - a, by omega, ?_, fun j hj => ?_⟩
  · rw [if_pos (by omega)]; congr 2; omega
  · rw [if_neg (by omega), if_neg (by omega)]

/-- A block write that begins in a guarded font fails at its first byte (R37). -/
theorem checkBlock_write_some_font (p : Params) (a n : Nat) (hn : 0 < n) (h : a < fontSize) (hp : p.fontWrite = .fault) :
    checkBlock p .write a n = some (.fontRegionWrite a) := by
  rw [checkBlock_some_iff]
  simp only [fontSize] at h
  refine ⟨0, hn, ?_, fun j hj => absurd hj (by omega)⟩
  unfold checkByte
  rw [if_neg (by omega), if_pos ⟨rfl, by omega, hp⟩]
  rfl

/-! ## Fetch -/

/-- A fetch succeeds exactly at a fetchable pc, and reads the word there (R61). -/
theorem fetch_of_fetchable {s : State} (h : Fetchable s) : fetch s = .ok (wordAtPc s) := by
  obtain ⟨h1, h2⟩ := h
  have ha : checkFetchAlign s.params s.pc = none := by
    unfold checkFetchAlign
    rw [if_neg]
    rintro ⟨hb, hp⟩
    rcases h2 with h2 | h2
    · rw [← BitVec.testBit_toNat, Nat.testBit_zero] at hb; simp at hb; omega
    · rw [h2] at hp; cases hp
  simp only [fetch, ha, State.memRead, checkByte_read]
  rw [if_neg (by omega), if_neg (by omega)]
  rfl

theorem fetch_ok {s : State} {w : Word} (h : fetch s = .ok w) : Fetchable s ∧ w = wordAtPc s := by
  have hf : Fetchable s := by
    unfold fetch at h
    split at h
    · cases h
    · next ha =>
      simp only [State.memRead, checkByte_read] at h
      constructor
      · by_contra hc
        by_cases h1 : 0xFFF < s.pc.toNat
        · simp [h1] at h
        · have h2 : 0xFFF < s.pc.toNat + 1 := by omega
          simp [h1, h2] at h
      · unfold checkFetchAlign at ha
        by_contra hc
        rw [not_or] at hc
        rw [if_pos] at ha
        · cases ha
        · constructor
          · rw [← BitVec.testBit_toNat, Nat.testBit_zero]; simp; omega
          · cases hp : s.params.pcOdd with
            | fault => rfl
            | fetch => exact absurd hp hc.2
  exact ⟨hf, by rw [fetch_of_fetchable hf] at h; cases h; rfl⟩

/-- The step, case by case (R63): stuck, a faulting fetch, an UNKNOWN word, or the decoded instruction. -/
theorem step_cases {s t : State} (h : step s = .next t) :
    (s.fault ≠ none ∧ t = s) ∨
    (s.fault = none ∧ ∃ f, fetch s = .error f ∧ t = s.setFault f) ∨
    (s.fault = none ∧ Fetchable s ∧ (∃ e, decode (wordAtPc s) = .error e) ∧ t = s.advance) ∨
    (s.fault = none ∧ Fetchable s ∧ ∃ i, decode (wordAtPc s) = .ok i ∧ exec i s = .next t) := by
  unfold step at h
  split at h
  · next f hf => cases h; exact .inl ⟨by simp [hf], rfl⟩
  · next hf =>
    split at h
    · next f hfe => cases h; exact .inr (.inl ⟨hf, f, hfe, rfl⟩)
    · next w hw =>
      obtain ⟨hw1, rfl⟩ := fetch_ok hw
      split at h
      · next e he => cases h; exact .inr (.inr (.inl ⟨hf, hw1, ⟨e, he⟩, rfl⟩))
      · next i hi => exact .inr (.inr (.inr ⟨hf, hw1, i, hi, h⟩))

end Sys2Proof.Machine
end

