-- ==== Sys2Proof/Laws/Exec.lean ====
section
/-! SUPPORT. Every instruction answers a next state: a precise fault, or a state that keeps all but what the
instruction writes. Said once; the claims over all instructions derive from it. -/

namespace Sys2Proof.Machine

/-- The registers an instruction may write. -/
def frameRegs (i : Instr) : List Reg :=
  match i with
  | .ldByte x _ | .addByte x _ | .ldReg x _ | .orReg x _ | .andReg x _ | .xorReg x _ | .rnd x _ | .ldVxDt x | .ldVxKey x => [x]
  | .addReg x _ | .sub x _ | .shr x _ | .subn x _ | .shl x _ => [x, regF]
  | .drw _ _ _ | .addI _ => [regF]
  | .loadRegs x => (List.finRange 16).filter (· ≤ x)
  | .cls | .ret | .jp _ | .call _ | .seByte _ _ | .sneByte _ _ | .seReg _ _ | .sneReg _ _ | .ldI _ | .jpV0 _ | .skp _
  | .sknp _ | .ldDtVx _ | .ldStVx _ | .ldFont _ | .ldBcd _ | .storeRegs _ => []

/-- The pieces of state an instruction that does not fault may write. -/
def framePieces (i : Instr) : List Piece :=
  match i with
  | .cls | .drw _ _ _ => [.pixels, .redraw]
  | .ret | .call _ => [.stack]
  | .ldI _ | .addI _ | .ldFont _ | .loadRegs _ => [.index]
  | .storeRegs _ => [.memory, .index]
  | .ldBcd _ => [.memory]
  | .rnd _ _ | .ldVxKey _ => [.draws]
  | .ldDtVx _ => [.delay]
  | .ldStVx _ => [.sound]
  | .jp _ | .seByte _ _ | .sneByte _ _ | .seReg _ _ | .ldByte _ _ | .addByte _ _ | .ldReg _ _ | .orReg _ _ | .andReg _ _
  | .xorReg _ _ | .addReg _ _ | .sub _ _ | .shr _ _ | .subn _ _ | .shl _ _ | .sneReg _ _ | .jpV0 _ | .skp _ | .sknp _
  | .ldVxDt _ => []

/-- The instruction completed: the fault status is as before, and all but what the instruction writes is kept. -/
def Completes (i : Instr) (s t : State) : Prop :=
  exec i s = .next t ∧ t.fault = s.fault ∧ KeepsAllBut (frameRegs i) (framePieces i) s t

theorem completes_of_keeps {i : Instr} {s t : State} (h : exec i s = .next t) (hk : KeepsAllBut (frameRegs i) (framePieces i) s t)
    (hf : Piece.fault ∉ framePieces i) : Completes i s t := ⟨h, hk.2.1 .fault hf, hk⟩

theorem keeps_writeResult (s : State) (x : Reg) (b : Byte) : KeepsAllBut [x] [] s (s.setReg x b).advance := by
  simpa using (keeps_setReg s x b).trans (keeps_advance _)

theorem keeps_writeFlagged (s : State) (x : Reg) (flag b : Byte) : KeepsAllBut [x, regF] [] s (s.writeFR x flag b).advance := by
  simpa using (keeps_writeFR s x flag b).trans (keeps_advance _)

theorem keeps_draw (s : State) (x y : Reg) (rows : List Byte) : KeepsAllBut [regF] [.pixels, .redraw] s (s.draw x y rows).advance := by
  simpa [State.draw] using ((keeps_setDisplay s _).trans (keeps_writeCollision _ _)).trans (keeps_advance _)

/-- What executing an instruction can do: fault precisely, or complete. -/
theorem exec_cases (i : Instr) (s : State) : (∃ f, exec i s = .next (s.setFault f)) ∨ ∃ t, Completes i s t := by
  cases i with
  | ret =>
    cases hp : s.pop with
    | none => exact .inl ⟨.stackUnderflow s.pc, by simp [exec, execRet, hp, raise]⟩
    | some wt =>
      obtain ⟨w, t⟩ := wt
      obtain ⟨-, -, -, -, -, -, hk⟩ := pop_some hp
      exact .inr ⟨t.setPc w, completes_of_keeps (by simp [exec, execRet, hp])
        (by simpa [frameRegs, framePieces] using hk.trans (keeps_setPc t w)) (by decide)⟩
  | call nnn =>
    cases hp : s.push (s.pc + 2#16) with
    | none => exact .inl ⟨.stackOverflow s.pc, by simp [exec, execCall, hp, raise]⟩
    | some t =>
      obtain ⟨-, -, -, -, -, hk⟩ := push_some hp
      exact .inr ⟨t.setPc (zextAddr nnn), completes_of_keeps (by simp [exec, execCall, hp])
        (by simpa [frameRegs, framePieces] using hk.trans (keeps_setPc t _)) (by simp [framePieces])⟩
  | skp x =>
    by_cases h : 0x0F < (s.reg x).toNat
    · exact .inl ⟨.keyIndexOutOfRange (s.reg x), by simp only [exec, execSkp, keyTest, h, if_true, raise]⟩
    · exact .inr ⟨s.skipIf (s.keyDown (s.reg x).toNat == true), completes_of_keeps
        (by simp only [exec, execSkp, keyTest, h, if_false]) (keeps_skipIf s _) (by simp [framePieces])⟩
  | sknp x =>
    by_cases h : 0x0F < (s.reg x).toNat
    · exact .inl ⟨.keyIndexOutOfRange (s.reg x), by simp only [exec, execSknp, keyTest, h, if_true, raise]⟩
    · exact .inr ⟨s.skipIf (s.keyDown (s.reg x).toNat == false), completes_of_keeps
        (by simp only [exec, execSknp, keyTest, h, if_false]) (keeps_skipIf s _) (by simp [framePieces])⟩
  | ldBcd x =>
    cases h : s.storeBlock s.base (decimalDigits (s.reg x)) with
    | error f => exact .inl ⟨f, by simp only [exec, execLdBcd, h, raise]⟩
    | ok t =>
      obtain ⟨-, rfl⟩ := storeBlock_ok h
      exact .inr ⟨_, completes_of_keeps (by simp only [exec, execLdBcd, h]; rfl)
        (by simpa [frameRegs, framePieces] using (keeps_setBytes s s.base _).trans (keeps_advance _)) (by simp [framePieces])⟩
  | storeRegs x =>
    cases h : s.storeBlock s.base (s.regsUpTo x) with
    | error f => exact .inl ⟨f, by simp only [exec, execStoreRegs, h, raise]⟩
    | ok t =>
      obtain ⟨-, rfl⟩ := storeBlock_ok h
      exact .inr ⟨_, completes_of_keeps (by simp only [exec, execStoreRegs, h]; rfl)
        (by simpa [frameRegs, framePieces] using ((keeps_setBytes s s.base _).trans (keeps_setIndex _ _)).trans (keeps_advance _)) (by simp [framePieces])⟩
  | loadRegs x =>
    cases h : s.loadBlock s.base (blockCount x) with
    | error f => exact .inl ⟨f, by simp only [exec, execLoadRegs, h, raise]⟩
    | ok bs =>
      obtain ⟨-, rfl⟩ := (loadBlock_ok_iff _ _ _ _).mp h
      exact .inr ⟨_, completes_of_keeps (by simp only [exec, execLoadRegs, h]; rfl)
        (by simpa [frameRegs, framePieces] using ((keeps_setRegsFrom s _ x (by simp [blockCount])).trans (keeps_setIndex _ _)).trans (keeps_advance _))
        (by simp [framePieces])⟩
  | drw x y n =>
    cases h : s.loadBlock s.base n with
    | error f => exact .inl ⟨f, by simp only [exec, execDrw, h, raise]⟩
    | ok rows => exact .inr ⟨(s.draw x y rows).advance, completes_of_keeps (by simp only [exec, execDrw, h]) (keeps_draw s x y rows) (by simp [framePieces])⟩
  | ldVxKey x =>
    cases h : s.pressedKeys with
    | nil => exact .inr ⟨s, completes_of_keeps (by simp only [exec, execLdVxKey, ldKeyWith, h])
        ((KeepsAllBut.refl s).mono (by simp) (List.nil_subset _)) (by simp [framePieces])⟩
    | cons k more => exact .inr ⟨_, completes_of_keeps (by simp only [exec, execLdVxKey, ldKeyWith, h]; rfl)
        (by simpa [frameRegs, framePieces] using (keeps_countDraw s).trans (keeps_writeResult _ x _)) (by simp [framePieces])⟩
  | addReg x y | sub x y | subn x y | shr x y | shl x y =>
    exact .inr ⟨_, completes_of_keeps rfl (keeps_writeFlagged s x _ _) (by simp [framePieces])⟩
  | ldByte x nn | addByte x nn | ldReg x y | orReg x y | andReg x y | xorReg x y | ldVxDt x =>
    exact .inr ⟨_, completes_of_keeps rfl (keeps_writeResult s x _) (by simp [framePieces])⟩
  | rnd x nn =>
    exact .inr ⟨_, completes_of_keeps rfl (by simpa [frameRegs, framePieces] using (keeps_countDraw s).trans (keeps_writeResult _ x _)) (by simp [framePieces])⟩
  | jp nnn | jpV0 nnn => exact .inr ⟨_, completes_of_keeps rfl (keeps_setPc s _) (by simp [framePieces])⟩
  | seByte x nn | sneByte x nn | seReg x y | sneReg x y =>
    exact .inr ⟨_, completes_of_keeps rfl (keeps_skipIf s _) (by simp [framePieces])⟩
  | ldI nnn | ldFont x =>
    exact .inr ⟨_, completes_of_keeps rfl (by simpa [frameRegs, framePieces] using (keeps_setIndex s _).trans (keeps_advance _)) (by simp [framePieces])⟩
  | addI x =>
    exact .inr ⟨_, completes_of_keeps rfl
      (by simpa [frameRegs, framePieces] using ((keeps_setReg s regF _).trans (keeps_setIndex _ _)).trans (keeps_advance _)) (by simp [framePieces])⟩
  | ldDtVx x =>
    exact .inr ⟨_, completes_of_keeps rfl (by simpa [frameRegs, framePieces] using (keeps_setDelay s _).trans (keeps_advance _)) (by simp [framePieces])⟩
  | ldStVx x =>
    exact .inr ⟨_, completes_of_keeps rfl (by simpa [frameRegs, framePieces] using (keeps_setSound s _).trans (keeps_advance _)) (by simp [framePieces])⟩
  | cls =>
    exact .inr ⟨_, completes_of_keeps rfl (by simpa [frameRegs, framePieces] using (keeps_setDisplay s _).trans (keeps_advance _)) (by simp [framePieces])⟩

/-- The same, from an answer in hand. -/
theorem exec_inv {i : Instr} {s t : State} (h : exec i s = .next t) : (∃ f, t = s.setFault f) ∨ Completes i s t := by
  rcases exec_cases i s with ⟨f, hf⟩ | ⟨u, hu⟩
  · rw [hf] at h; cases h; exact .inl ⟨f, rfl⟩
  · have := hu.1; rw [h] at this; cases this; exact .inr hu

end Sys2Proof.Machine
end

