-- ==== Sys2Proof/Laws/HostOps.lean ====
section
/-! SUPPORT. Runs of host operations: their induction, and what a legal run is, said once. -/

namespace Sys2Proof.Machine

@[simp] theorem hostRun_nil (s : State) : hostRun [] s = s := rfl

@[simp] theorem hostRun_cons (op : HostOp) (rest : List HostOp) (s : State) :
    hostRun (op :: rest) s = hostRun rest (hostState op s) := rfl

theorem hostRun_append (ops more : List HostOp) (s : State) : hostRun (ops ++ more) s = hostRun more (hostRun ops s) := by
  induction ops generalizing s with
  | nil => rfl
  | cons op rest ih => exact ih _

/-- What every operation of a run keeps, the run keeps. -/
theorem hostRun_keeps {P : State → Prop} {ops : List HostOp} (h : ∀ op ∈ ops, ∀ s, P s → P (hostState op s)) {s : State} (hs : P s) :
    P (hostRun ops s) := by
  induction ops generalizing s with
  | nil => exact hs
  | cons op rest ih =>
    exact ih (fun o ho => h o (List.mem_cons_of_mem op ho)) (h op List.mem_cons_self s hs)

/-- A legal run begins with initialize (R126, R137). -/
theorem legalRun_starts {ops : List HostOp} (h : legalRun ops = true) : ∃ rest, ops = .init :: rest ∧ legalAfter true rest = true := by
  unfold legalRun at h
  split at h
  · exact ⟨_, rfl, h⟩
  all_goals cases h

/-- R126 in full: before a load, no step and no other load. -/
theorem legalAfter_iff (mayLoad : Bool) (ops : List HostOp) :
    legalAfter mayLoad ops = true ↔
      ∀ pre b post, ops = pre ++ .load b :: post → mayLoad = true ∧ .step ∉ pre ∧ ∀ c, .load c ∉ pre := by
  induction ops generalizing mayLoad with
  | nil => simp [legalAfter]
  | cons op rest ih =>
    have later (m : Bool) : (∀ pre b post, op :: rest = pre ++ .load b :: post → m = true ∧ .step ∉ pre ∧ ∀ c, .load c ∉ pre) ↔
        (∀ b, op = .load b → m = true) ∧
        ∀ pre b post, rest = pre ++ .load b :: post → m = true ∧ .step ∉ op :: pre ∧ ∀ c, .load c ∉ op :: pre := by
      constructor
      · refine fun h => ⟨fun b hb => (h [] b rest (by simp [hb])).1, fun pre b post hr => h (op :: pre) b post (by simp [hr])⟩
      · rintro ⟨h1, h2⟩ pre b post he
        cases pre with
        | nil => exact ⟨h1 b (by simpa using (List.cons.inj he).1), by simp, by simp⟩
        | cons o pre =>
          obtain ⟨rfl, hr⟩ := List.cons.inj he
          exact h2 pre b post hr
    rw [later]
    cases op with
    | load image =>
      simp only [legalAfter, Bool.and_eq_true, ih, Bool.false_eq_true, false_and, imp_false]
      refine ⟨fun ⟨hm, h⟩ => ⟨fun _ _ => hm, fun pre b post hr => absurd hr (h pre b post)⟩,
        fun ⟨hm, h⟩ => ⟨hm image rfl, fun pre b post hr => (h pre b post hr).2.2 image List.mem_cons_self⟩⟩
    | init | step | tick | setKeys k | clearRedraw => simp [legalAfter, ih]

end Sys2Proof.Machine
end

