-- ==== Sys2Proof/Laws/PerInstr.lean ====
section
/-! SUPPORT. Per instruction: the encoded word of a well-formed instruction matches the instruction's own row of R54
(its digits, and no bit of an operand, decide which row it matches). -/

namespace Sys2Proof.Laws

/-- A mask acts on an append part by part. -/
theorem and_parts {m n : Nat} {a c e : BitVec m} {b d f : BitVec n} (h1 : a &&& c = e) (h2 : b &&& d = f) :
    (a ++ b) &&& (c ++ d) = e ++ f := by
  rw [BitVec.and_append, h1, h2]

theorem and_ones (n : BitVec 4) : n &&& 0xF#4 = n := BitVec.and_allOnes

theorem and_regZero (x : Reg) : (BitVec.ofFin x : BitVec 4) &&& BitVec.ofFin (0 : Reg) = BitVec.ofFin (0 : Reg) :=
  BitVec.and_zero

/-- A mask that keeps the family and drops X, on the formats XNN and XS. -/
theorem mask_encodeXNN (t : BitVec 4) (x : Reg) (nn m : Byte) :
    encodeXNN t x nn &&& encodeXNN 0xF#4 0 m = encodeXNN t 0 (nn &&& m) := by
  unfold encodeXNN
  exact and_parts (and_parts (and_ones t) (and_regZero x)) rfl

/-- A mask that keeps the family and drops X and Y, on the formats XY and XYN. -/
theorem mask_encodeXYN (t : BitVec 4) (x y : Reg) (n m : BitVec 4) :
    encodeXYN t x y n &&& encodeXYN 0xF#4 0 0 m = encodeXYN t 0 0 (n &&& m) := by
  unfold encodeXYN
  exact and_parts (and_parts (and_parts (and_ones t) (and_regZero x)) (and_regZero y)) rfl

/-- A mask that keeps the family alone, on formats XNN and XYN. -/
theorem mask_family_XNN (t : BitVec 4) (x : Reg) (nn : Byte) : encodeXNN t x nn &&& encodeXNN 0xF#4 0 0#8 = encodeXNN t 0 0#8 := by
  rw [mask_encodeXNN, BitVec.and_zero]

theorem mask_family_XYN (t : BitVec 4) (x y : Reg) (n : BitVec 4) :
    encodeXYN t x y n &&& encodeXYN 0xF#4 0 0 0#4 = encodeXYN t 0 0 0#4 := by
  rw [mask_encodeXYN, BitVec.and_zero]

/-- A mask that keeps the family alone, on format A. -/
theorem mask_encodeA (t : BitVec 4) (nnn : Addr) : encodeA t nnn &&& encodeA 0xF#4 0 = encodeA t 0 := by
  unfold encodeA
  exact and_parts (and_ones t) BitVec.and_zero

namespace EncodeMatchesRow

/-- The encoded word selects the row of R54 that stands for the instruction. -/
def Statement (i : Instr) : Prop :=
  i.WellFormed → ∃ row, opcodeRows[rowNumber i]? = some row ∧ row.selects (encode i) = true

/-- A row whose masked word is the instruction's is selected. -/
theorem of_row {i : Instr} {row : OpcodeRow} (h : opcodeRows[rowNumber i]? = some row)
    (he : encode i &&& row.mask = row.matchBits) : Statement i :=
  fun _ => ⟨row, h, by simp [OpcodeRow.selects, he]⟩

theorem cls : Statement .cls := of_row rfl rfl
theorem ret : Statement .ret := of_row rfl rfl
theorem jp (nnn : Addr) : Statement (.jp nnn) := of_row rfl (mask_encodeA _ nnn)
theorem call (nnn : Addr) : Statement (.call nnn) := of_row rfl (mask_encodeA _ nnn)
theorem seByte (x : Reg) (nn : Byte) : Statement (.seByte x nn) := of_row rfl (mask_family_XNN _ x nn)
theorem sneByte (x : Reg) (nn : Byte) : Statement (.sneByte x nn) := of_row rfl (mask_family_XNN _ x nn)
theorem seReg (x : Reg) (y : Reg) : Statement (.seReg x y) := of_row rfl (mask_encodeXYN _ x y _ 0xF#4)
theorem ldByte (x : Reg) (nn : Byte) : Statement (.ldByte x nn) := of_row rfl (mask_family_XNN _ x nn)
theorem addByte (x : Reg) (nn : Byte) : Statement (.addByte x nn) := of_row rfl (mask_family_XNN _ x nn)
theorem ldReg (x : Reg) (y : Reg) : Statement (.ldReg x y) := of_row rfl (mask_encodeXYN _ x y _ 0xF#4)
theorem orReg (x : Reg) (y : Reg) : Statement (.orReg x y) := of_row rfl (mask_encodeXYN _ x y _ 0xF#4)
theorem andReg (x : Reg) (y : Reg) : Statement (.andReg x y) := of_row rfl (mask_encodeXYN _ x y _ 0xF#4)
theorem xorReg (x : Reg) (y : Reg) : Statement (.xorReg x y) := of_row rfl (mask_encodeXYN _ x y _ 0xF#4)
theorem addReg (x : Reg) (y : Reg) : Statement (.addReg x y) := of_row rfl (mask_encodeXYN _ x y _ 0xF#4)
theorem sub (x : Reg) (y : Reg) : Statement (.sub x y) := of_row rfl (mask_encodeXYN _ x y _ 0xF#4)
theorem shr (x : Reg) (y : Reg) : Statement (.shr x y) := of_row rfl (mask_encodeXYN _ x y _ 0xF#4)
theorem subn (x : Reg) (y : Reg) : Statement (.subn x y) := of_row rfl (mask_encodeXYN _ x y _ 0xF#4)
theorem shl (x : Reg) (y : Reg) : Statement (.shl x y) := of_row rfl (mask_encodeXYN _ x y _ 0xF#4)
theorem sneReg (x : Reg) (y : Reg) : Statement (.sneReg x y) := of_row rfl (mask_encodeXYN _ x y _ 0xF#4)
theorem ldI (nnn : Addr) : Statement (.ldI nnn) := of_row rfl (mask_encodeA _ nnn)
theorem jpV0 (nnn : Addr) : Statement (.jpV0 nnn) := of_row rfl (mask_encodeA _ nnn)
theorem rnd (x : Reg) (nn : Byte) : Statement (.rnd x nn) := of_row rfl (mask_family_XNN _ x nn)
theorem drw (x : Reg) (y : Reg) (n : Nat) : Statement (.drw x y n) := of_row rfl (mask_family_XYN _ x y _)
theorem skp (x : Reg) : Statement (.skp x) := of_row rfl (mask_encodeXNN _ x _ 0xFF#8)
theorem sknp (x : Reg) : Statement (.sknp x) := of_row rfl (mask_encodeXNN _ x _ 0xFF#8)
theorem ldVxDt (x : Reg) : Statement (.ldVxDt x) := of_row rfl (mask_encodeXNN _ x _ 0xFF#8)
theorem ldVxKey (x : Reg) : Statement (.ldVxKey x) := of_row rfl (mask_encodeXNN _ x _ 0xFF#8)
theorem ldDtVx (x : Reg) : Statement (.ldDtVx x) := of_row rfl (mask_encodeXNN _ x _ 0xFF#8)
theorem ldStVx (x : Reg) : Statement (.ldStVx x) := of_row rfl (mask_encodeXNN _ x _ 0xFF#8)
theorem addI (x : Reg) : Statement (.addI x) := of_row rfl (mask_encodeXNN _ x _ 0xFF#8)
theorem ldFont (x : Reg) : Statement (.ldFont x) := of_row rfl (mask_encodeXNN _ x _ 0xFF#8)
theorem ldBcd (x : Reg) : Statement (.ldBcd x) := of_row rfl (mask_encodeXNN _ x _ 0xFF#8)
theorem storeRegs (x : Reg) : Statement (.storeRegs x) := of_row rfl (mask_encodeXNN _ x _ 0xFF#8)
theorem loadRegs (x : Reg) : Statement (.loadRegs x) := of_row rfl (mask_encodeXNN _ x _ 0xFF#8)

end EncodeMatchesRow

end Sys2Proof.Laws
end

