-- ==== Sys2Proof/Machine/Listing.lean ====
section
/-! DEFINITION. The assembler syntax of R58: the text of an instruction in a listing. It carries no semantics (log 18). -/

namespace Sys2Proof.Machine

/-- A hex digit, upper case. -/
def hexDigit (n : Nat) : Char := ("0123456789ABCDEF".toList).getD (n % 16) '0'

/-- `len` hex digits of a number, most significant first. -/
def hexDigits (len n : Nat) : List Char :=
  match len with
  | 0 => []
  | k + 1 => hexDigits k (n / 16) ++ [hexDigit n]

/-- A number in hex with the `0x` in front (R58). -/
def hexText (len n : Nat) : List Char := '0' :: 'x' :: hexDigits len n

/-- `V0` to `VF` (R58). -/
def regText (x : Reg) : List Char := ['V', hexDigit x.val]

/-- A mnemonic with one operand. -/
def text1 (m : String) (a : List Char) : List Char := m.toList ++ ' ' :: a

/-- A mnemonic with two operands. -/
def text2 (m : String) (a b : List Char) : List Char := text1 m a ++ ',' :: ' ' :: b

/-- The listing text of an instruction, the forms of R54's mnemonic column. -/
def listing (i : Instr) : List Char :=
  match i with
  | .cls => "CLS".toList
  | .ret => "RET".toList
  | .jp nnn => text1 "JP" (hexText 3 nnn.toNat)
  | .call nnn => text1 "CALL" (hexText 3 nnn.toNat)
  | .seByte x nn => text2 "SE" (regText x) (hexText 2 nn.toNat)
  | .sneByte x nn => text2 "SNE" (regText x) (hexText 2 nn.toNat)
  | .seReg x y => text2 "SE" (regText x) (regText y)
  | .ldByte x nn => text2 "LD" (regText x) (hexText 2 nn.toNat)
  | .addByte x nn => text2 "ADD" (regText x) (hexText 2 nn.toNat)
  | .ldReg x y => text2 "LD" (regText x) (regText y)
  | .orReg x y => text2 "OR" (regText x) (regText y)
  | .andReg x y => text2 "AND" (regText x) (regText y)
  | .xorReg x y => text2 "XOR" (regText x) (regText y)
  | .addReg x y => text2 "ADD" (regText x) (regText y)
  | .sub x y => text2 "SUB" (regText x) (regText y)
  | .shr x y => text2 "SHR" (regText x) (regText y)
  | .subn x y => text2 "SUBN" (regText x) (regText y)
  | .shl x y => text2 "SHL" (regText x) (regText y)
  | .sneReg x y => text2 "SNE" (regText x) (regText y)
  | .ldI nnn => text2 "LD" ['I'] (hexText 3 nnn.toNat)
  | .jpV0 nnn => text2 "JP" (regText reg0) (hexText 3 nnn.toNat)
  | .rnd x nn => text2 "RND" (regText x) (hexText 2 nn.toNat)
  | .drw x y n => text2 "DRW" (regText x) (regText y) ++ ',' :: ' ' :: (toString n).toList
  | .skp x => text1 "SKP" (regText x)
  | .sknp x => text1 "SKNP" (regText x)
  | .ldVxDt x => text2 "LD" (regText x) "DT".toList
  | .ldVxKey x => text2 "LD" (regText x) "K".toList
  | .ldDtVx x => text2 "LD" "DT".toList (regText x)
  | .ldStVx x => text2 "LD" "ST".toList (regText x)
  | .addI x => text2 "ADD" "I".toList (regText x)
  | .ldFont x => text2 "LD" "F".toList (regText x)
  | .ldBcd x => text2 "LD" "B".toList (regText x)
  | .storeRegs x => text2 "LD" "[I]".toList (regText x)
  | .loadRegs x => text2 "LD" (regText x) "[I]".toList

/-- `SHR Vx` and `SHL Vx` written without Vy stand for Y = 0 (R58). -/
def shrAlone (x : Reg) : Instr := .shr x 0

def shlAlone (x : Reg) : Instr := .shl x 0

/-- A listing line, `0x200: 6A3C  LD VA, 0x3C` (R58). -/
def listingLine (a : Nat) (i : Instr) : List Char :=
  hexText 3 a ++ ':' :: ' ' :: hexDigits 4 (encode i).toNat ++ ' ' :: ' ' :: listing i

end Sys2Proof.Machine
end

