-- ==== Sys2Proof/Tests/Slice0.lean ====
section
/-! SUPPORT. The model's own tests. Expected results come from `spec/95_test_vectors.md` (the vector's id is in each
comment) and from the encodings of R54; then, for every statement with hypotheses, a concrete case that meets them. -/

namespace Sys2Proof.Tests

open Sys2Proof.Machine

/-! ## WellFormed smoke -/

/-- R53: a row count of 16 does not fit the N field. -/
theorem test_wellFormed_refuses_row_count_16 : (Instr.drw 0 0 16).wellFormed = false := by decide

theorem test_wellFormed_takes_row_count_15 : (Instr.drw 15 15 15).wellFormed = true := by decide

/-! ## Words of R54 written out bit by bit, every constructor -/

theorem test_decode_cls : decode 0b0000_0000_1110_0000#16 = .ok .cls := by decide
theorem test_decode_ret : decode 0b0000_0000_1110_1110#16 = .ok .ret := by decide
theorem test_decode_jp : decode 0b0001_0010_0011_0100#16 = .ok (.jp 0x234#12) := by decide
theorem test_decode_call : decode 0b0010_1111_1111_1110#16 = .ok (.call 0xFFE#12) := by decide
theorem test_decode_seByte : decode 0b0011_0011_0001_0000#16 = .ok (.seByte 3 0x10#8) := by decide
theorem test_decode_sneByte : decode 0b0100_1111_1000_0001#16 = .ok (.sneByte 15 0x81#8) := by decide
theorem test_decode_seReg : decode 0b0101_0001_0010_0000#16 = .ok (.seReg 1 2) := by decide
theorem test_decode_ldByte : decode 0b0110_1010_0011_1100#16 = .ok (.ldByte 0xA 0x3C#8) := by decide
theorem test_decode_addByte : decode 0b0111_1010_0000_0101#16 = .ok (.addByte 0xA 0x05#8) := by decide
theorem test_decode_ldReg : decode 0b1000_0001_0010_0000#16 = .ok (.ldReg 1 2) := by decide
theorem test_decode_orReg : decode 0b1000_0001_0010_0001#16 = .ok (.orReg 1 2) := by decide
theorem test_decode_andReg : decode 0b1000_0001_0010_0010#16 = .ok (.andReg 1 2) := by decide
theorem test_decode_xorReg : decode 0b1000_0001_0010_0011#16 = .ok (.xorReg 1 2) := by decide
theorem test_decode_addReg : decode 0b1000_0001_0010_0100#16 = .ok (.addReg 1 2) := by decide
theorem test_decode_sub : decode 0b1000_0001_0010_0101#16 = .ok (.sub 1 2) := by decide
theorem test_decode_shr : decode 0b1000_0010_0011_0110#16 = .ok (.shr 2 3) := by decide
theorem test_decode_subn : decode 0b1000_0001_0010_0111#16 = .ok (.subn 1 2) := by decide
theorem test_decode_shl : decode 0b1000_0010_0011_1110#16 = .ok (.shl 2 3) := by decide
theorem test_decode_sneReg : decode 0b1001_0001_0010_0000#16 = .ok (.sneReg 1 2) := by decide
theorem test_decode_ldI : decode 0b1010_0011_0000_0001#16 = .ok (.ldI 0x301#12) := by decide
theorem test_decode_jpV0 : decode 0b1011_0011_0000_0001#16 = .ok (.jpV0 0x301#12) := by decide
theorem test_decode_rnd : decode 0b1100_0011_0000_1111#16 = .ok (.rnd 3 0x0F#8) := by decide
theorem test_decode_drw : decode 0b1101_0110_0001_0101#16 = .ok (.drw 6 1 5) := by decide
theorem test_decode_skp : decode 0b1110_0101_1001_1110#16 = .ok (.skp 5) := by decide
theorem test_decode_sknp : decode 0b1110_0101_1010_0001#16 = .ok (.sknp 5) := by decide
theorem test_decode_ldVxDt : decode 0b1111_0010_0000_0111#16 = .ok (.ldVxDt 2) := by decide
theorem test_decode_ldVxKey : decode 0b1111_0010_0000_1010#16 = .ok (.ldVxKey 2) := by decide
theorem test_decode_ldDtVx : decode 0b1111_0010_0001_0101#16 = .ok (.ldDtVx 2) := by decide
theorem test_decode_ldStVx : decode 0b1111_0010_0001_1000#16 = .ok (.ldStVx 2) := by decide
theorem test_decode_addI : decode 0b1111_0010_0001_1110#16 = .ok (.addI 2) := by decide
theorem test_decode_ldFont : decode 0b1111_0010_0010_1001#16 = .ok (.ldFont 2) := by decide
theorem test_decode_ldBcd : decode 0b1111_0010_0011_0011#16 = .ok (.ldBcd 2) := by decide
theorem test_decode_storeRegs : decode 0b1111_0010_0101_0101#16 = .ok (.storeRegs 2) := by decide
theorem test_decode_loadRegs : decode 0b1111_0010_0110_0101#16 = .ok (.loadRegs 2) := by decide

/-- F2, F3, T18, A27, A28, K7, K14: words that match no row. -/
theorem test_decode_unknown :
    [0x0123#16, 0x00E1#16, 0x5011#16, 0x8018#16, 0x801F#16, 0xE59F#16, 0xF208#16].all
      (fun w => decide (decode w = .error (.unknownOpcode w))) = true := by decide

/-- R39: the byte at the lower address is the high one. -/
theorem test_decodeBytes_big_endian : decodeBytes [0x6A, 0x3C, 0x7A] = .ok (.ldByte 0xA 0x3C#8, [0x7A]) := by decide

theorem test_decodeTableWord : decodeTableWord 16 0xD615 = some (.drw 6 1 5) := by decide

/-- R58: the listing line of the rule. -/
theorem test_listing : listingLine 0x200 (.ldByte 0xA 0x3C#8) = "0x200: 6A3C  LD VA, 0x3C".toList := by decide

/-! ## One step of every instruction -/

/-- The start state of the vectors: after initialize, the word at pc, the redraw flag cleared by the host. -/
def atWord (w : Nat) : State := clearRedraw (State.reset.withFetchWord 16 w)

/-- The same with one parameter changed. -/
def withParams (f : Params → Params) (s : State) : State := { s with params := f s.params }

/-- `withFetchWord` places the word where the step fetches: at a pc that cannot be fetched from, at 0x200. -/
theorem test_withFetchWord_moves_pc : fetch ((State.reset.setPc 0x1003#16).withFetchWord 16 0x00EE) = .ok 0x00EE#16 := by decide

/-- V3. -/
theorem test_cls : (stepState { atWord 0x00E0 with fb := Vector.replicate 32 0xF0#64 }).fb = blankScreen ∧
    (stepState (atWord 0x00E0)).redraw = true := by decide

/-- T1: pc takes the popped value, no increment. -/
theorem test_ret : (stepState { atWord 0x00EE with sp := 1, stack := Vector.replicate 16 0x206#16 }).pc = 0x206#16 := by decide

/-- T2. -/
theorem test_ret_underflow : (stepState (atWord 0x00EE)).fault = some (.stackUnderflow 0x200#16) ∧
    (stepState (atWord 0x00EE)).pc = 0x200#16 := by decide

/-- T4: an odd target is taken. -/
theorem test_jp : (stepState (atWord 0x1203)).pc = 0x203#16 := by decide

/-- T6: the sixteenth nested call succeeds. -/
theorem test_call : (stepState { atWord 0x2210 with sp := 15 }).stack[15] = 0x202#16 ∧
    (stepState { atWord 0x2210 with sp := 15 }).sp = 16 := by decide

/-- T7. -/
theorem test_call_overflow : (stepState { atWord 0x2210 with sp := 16 }).fault = some (.stackOverflow 0x200#16) := by decide

/-- T9: no reduction mod 4096. -/
theorem test_jpV0 : (stepState ((atWord 0xBFFF).setReg 0 0xFF)).pc = 0x10FE#16 := by decide

/-- T11, T12. -/
theorem test_seByte : (stepState ((atWord 0x3310).setReg 3 0x10)).pc = 0x204#16 ∧
    (stepState ((atWord 0x3311).setReg 3 0x10)).pc = 0x202#16 := by decide

/-- T13, T14. -/
theorem test_sneByte : (stepState ((atWord 0x4311).setReg 3 0x10)).pc = 0x204#16 ∧
    (stepState ((atWord 0x4310).setReg 3 0x10)).pc = 0x202#16 := by decide

/-- T15, T16. -/
theorem test_seReg : (stepState (((atWord 0x5010).setReg 0 5).setReg 1 5)).pc = 0x204#16 ∧
    (stepState (((atWord 0x5010).setReg 0 5).setReg 1 6)).pc = 0x202#16 := by decide

/-- T19, T20. -/
theorem test_sneReg : (stepState (((atWord 0x9010).setReg 0 4).setReg 1 5)).pc = 0x204#16 ∧
    (stepState (((atWord 0x9010).setReg 0 5).setReg 1 5)).pc = 0x202#16 := by decide

/-- A1. -/
theorem test_ldByte : (stepState (atWord 0x6A3C)).reg 0xA = 0x3C := by decide

/-- A3: wraps, VF unchanged. -/
theorem test_addByte : (stepState (((atWord 0x7AFF).setReg 0xA 2).setReg 0xF 0x77)).reg 0xA = 1 ∧
    (stepState (((atWord 0x7AFF).setReg 0xA 2).setReg 0xF 0x77)).reg 0xF = 0x77 := by decide

/-- A5. -/
theorem test_ldReg : (stepState ((atWord 0x8120).setReg 2 0x99)).reg 1 = 0x99 := by decide

/-- A6. -/
theorem test_orReg : (stepState (((atWord 0x8121).setReg 1 0xF0).setReg 2 0x0F)).reg 1 = 0xFF := by decide

/-- A7. -/
theorem test_andReg : (stepState (((atWord 0x8122).setReg 1 0xF3).setReg 2 0x3F)).reg 1 = 0x33 := by decide

/-- A8, VF unchanged. -/
theorem test_xorReg : (stepState ((((atWord 0x8123).setReg 1 0xFF).setReg 2 0x0F).setReg 0xF 0x55)).reg 1 = 0xF0 ∧
    (stepState ((((atWord 0x8123).setReg 1 0xFF).setReg 2 0x0F).setReg 0xF 0x55)).reg 0xF = 0x55 := by decide

/-- V5. -/
theorem test_addReg : (stepState (((atWord 0x8014).setReg 0 0xFF).setReg 1 1)).reg 0 = 0 ∧
    (stepState (((atWord 0x8014).setReg 0 0xFF).setReg 1 1)).reg 0xF = 1 := by decide

/-- A12: X = F, both write orders. -/
theorem test_addReg_into_VF : (stepState (((atWord 0x8F14).setReg 0xF 0x10).setReg 1 0x20)).reg 0xF = 0x30 ∧
    (stepState (withParams (fun p => { p with vfWriteOrder := .resultThenFlag })
      (((atWord 0x8F14).setReg 0xF 0x10).setReg 1 0x20))).reg 0xF = 0 := by decide

/-- V6. -/
theorem test_sub : (stepState (((atWord 0x8015).setReg 0 5).setReg 1 0x0A)).reg 0 = 0xFB ∧
    (stepState (((atWord 0x8015).setReg 0 5).setReg 1 0x0A)).reg 0xF = 0 := by decide

/-- A14: equal operands do not borrow. -/
theorem test_sub_equal : (stepState (((atWord 0x8015).setReg 0 7).setReg 1 7)).reg 0xF = 1 := by decide

/-- A18. -/
theorem test_subn : (stepState (((atWord 0x8017).setReg 0 5).setReg 1 0x0A)).reg 0 = 5 ∧
    (stepState (((atWord 0x8017).setReg 0 5).setReg 1 0x0A)).reg 0xF = 1 := by decide

/-- A20. -/
theorem test_subn_into_VF : (stepState (withParams (fun p => { p with vfWriteOrder := .resultThenFlag })
    (((atWord 0x8F17).setReg 0xF 0x10).setReg 1 0x30))).reg 0xF = 1 := by decide

/-- A21: the source is Vx, Vy is not read. -/
theorem test_shr : (stepState (((atWord 0x8236).setReg 2 5).setReg 3 0xFF)).reg 2 = 2 ∧
    (stepState (((atWord 0x8236).setReg 2 5).setReg 3 0xFF)).reg 0xF = 1 := by decide

/-- A24. -/
theorem test_shl : (stepState ((atWord 0x823E).setReg 2 0x81)).reg 2 = 2 ∧
    (stepState ((atWord 0x823E).setReg 2 0x81)).reg 0xF = 1 := by decide

/-- A26. -/
theorem test_shl_of_VF : (stepState ((atWord 0x8F0E).setReg 0xF 0x81)).reg 0xF = 2 := by decide

/-- M1. -/
theorem test_ldI : (stepState (atWord 0xA300)).i = 0x300#16 := by decide

/-- A29, with the random input as the vector gives it. -/
theorem test_rnd : ∃ t, rndWith 0xAB 3 0x0F (atWord 0xC30F) = .next t ∧ t.reg 3 = 0x0B := ⟨_, rfl, by decide⟩

/-- A30: 0 for every random byte. -/
theorem test_rnd_masked (r : Byte) : ∃ t, rndWith r 3 0x00 (atWord 0xC300) = .next t ∧ t.reg 3 = 0 :=
  ⟨_, rfl, (show ((atWord 0xC300).setReg 3 (r &&& 0#8)).reg 3 = 0 by rw [BitVec.and_zero]; decide)⟩

/-- D2: glyph 0 at (0, 0): pixels 0-3, 64, 67, 128, 131, 192, 195, 256-259, row by row. -/
theorem test_drw : (stepState (atWord 0xD015)).fb.toList.take 6 = [0xF, 0x9, 0x9, 0x9, 0xF, 0] := by decide

/-- D7, both edge policies: pixels 60-63 and 0-3, or 60-63 alone. -/
theorem test_drw_edge :
    (stepState ((((atWord 0xD011).setIndex 0x300).setByte 0x300 0xFF).setReg 0 60)).fb[0] = 0xF00000000000000F#64 ∧
    (stepState (withParams (fun p => { p with drawEdge := .clip })
      ((((atWord 0xD011).setIndex 0x300).setByte 0x300 0xFF).setReg 0 60))).fb[0] = 0xF000000000000000#64 := by decide

/-- K1, K3. -/
theorem test_skp : (stepState { (atWord 0xE59E).setReg 5 0xA with key := 0x0400 }).pc = 0x204#16 ∧
    (stepState ((atWord 0xE59E).setReg 5 0x10)).fault = some (.keyIndexOutOfRange 0x10) := by decide

/-- K4, K5. -/
theorem test_sknp : (stepState ((atWord 0xE5A1).setReg 5 0xA)).pc = 0x204#16 ∧
    (stepState { (atWord 0xE5A1).setReg 5 0xA with key := 0x0400 }).pc = 0x202#16 := by decide

/-- K11. -/
theorem test_ldVxDt : (stepState { atWord 0xF207 with dt := 0x3C }).reg 2 = 0x3C := by decide

/-- K8: the wait changes nothing. -/
theorem test_ldVxKey_waits : stepState (atWord 0xF30A) = atWord 0xF30A ∧ stepReturn (atWord 0xF30A) = some .waiting := by decide

/-- K10: `lowest`, and the two choices of `any`. -/
theorem test_ldVxKey : drawKey .lowest 1 3 [9] = 3 ∧ drawKey .any 0 3 [9] = 3 ∧ drawKey .any 1 3 [9] = 9 := by decide

/-- K12. -/
theorem test_ldDtVx : (stepState ((atWord 0xF215).setReg 2 0x3C)).dt = 0x3C := by decide

/-- K13. -/
theorem test_ldStVx : (stepState ((atWord 0xF218).setReg 2 2)).st = 2 := by decide

/-- M3. -/
theorem test_addI : (stepState (((atWord 0xF11E).setIndex 0xFFF).setReg 1 1)).i = 0x1000#16 ∧
    (stepState (((atWord 0xF11E).setIndex 0xFFF).setReg 1 1)).reg 0xF = 1 := by decide

/-- M6: the original VF is added. -/
theorem test_addI_of_VF : (stepState (((atWord 0xFF1E).setIndex 0x300).setReg 0xF 5)).i = 0x305#16 ∧
    (stepState (((atWord 0xFF1E).setIndex 0x300).setReg 0xF 5)).reg 0xF = 0 := by decide

/-- M10: vx is not masked. -/
theorem test_ldFont : (stepState ((atWord 0xF429).setReg 4 0xFF)).i = 0x4FB#16 := by decide

/-- M11. -/
theorem test_ldBcd : (stepState (((atWord 0xF033).setIndex 0x300).setReg 0 0xFE)).bytesAt 0x300 3 = [2, 5, 4] := by decide

/-- M15: the first two bytes are not written. -/
theorem test_ldBcd_faults : stepState (((atWord 0xF033).setIndex 0xFFE).setReg 0 1) =
    (((atWord 0xF033).setIndex 0xFFE).setReg 0 1).setFault (.addressOutOfRange 0x1000) := by decide

/-- M21. -/
theorem test_storeRegs : (stepState (((atWord 0xFF55).setIndex 0xFF0).setReg 0xF 0xEE)).byteAt 0xFFF = 0xEE ∧
    (stepState (((atWord 0xFF55).setIndex 0xFF0).setReg 0xF 0xEE)).i = 0x1000#16 := by decide

/-- M22. -/
theorem test_storeRegs_font : (stepState ((atWord 0xF055).setIndex 0x04F)).fault = some (.fontRegionWrite 0x04F) := by decide

/-- M24. -/
theorem test_loadRegs : (stepState (atWord 0xF465)).v.toList.take 5 = [0xF0, 0x90, 0x90, 0x90, 0xF0] ∧
    (stepState (atWord 0xF465)).i = 0x005#16 := by decide

/-- M25. -/
theorem test_loadRegs_faults : (stepState ((atWord 0xF165).setIndex 0xFFF)).fault = some (.addressOutOfRange 0x1000) := by decide

/-! ## Fetch and ports -/

/-- F1. -/
theorem test_unknown_word : stepReturn State.reset = some (.reported 0x0000#16 0x200#16) ∧ (stepState State.reset).pc = 0x202#16 := by decide

/-- F4, F5. -/
theorem test_odd_pc : (stepState (State.reset.setPc 0x201)).fault = some (.misalignedFetch 0x201#16) ∧
    (stepState (withParams (fun p => { p with pcOdd := .fetch }) (State.reset.setPc 0x201))).pc = 0x203#16 := by decide

/-- F6. -/
theorem test_fetch_past_end : (stepState (withParams (fun p => { p with pcOdd := .fetch }) (State.reset.setPc 0xFFF))).fault =
    some (.addressOutOfRange 0x1000) := by decide

/-- K15, K16, K18. -/
theorem test_tick : (tick { State.reset with dt := 5, st := 2 }).dt = 4 ∧ hostReturn .tick { State.reset with st := 2 } = .nothing ∧
    hostReturn .tick { State.reset with st := 1 } = .sound ∧
    (tick ({ State.reset with dt := 3 }.setFault (.stackOverflow 0x200))).dt = 2 := by decide

/-- V2 on small images: placed from 0x200, one byte after the other. -/
theorem test_load : (hostState (.load [0x22, 0x00]) State.reset).bytesAt 0x1FF 4 = [0x00, 0x22, 0x00, 0x00] := by decide

/-- F9, F10. -/
theorem test_initCore_and_ports : hostState .init ((clearRedraw State.reset).setFault (.stackUnderflow 0x212)) = State.reset ∧
    (hostRun [.setKeys 0x0080, .clearRedraw] State.reset).keyDown 7 = true := by decide

/-- R114, R115: the codes. -/
theorem test_codes : faultCode (.fontRegionWrite 0) = 6 ∧ reportCode .unknownOpcode = 0x20 := by decide

/-! ## Cases that meet the hypotheses of the statements, at the boundaries of their clauses -/

/-- LoadCopiesImage: the largest image, and one byte more. -/
theorem witness_LoadCopiesImage : (∃ b : List Byte, b.length = 4096 - 0x200 ∧ MemoryCanonical State.reset) ∧
    ∃ b : List Byte, 4096 - 0x200 < b.length :=
  ⟨⟨List.replicate 3584 0xAA, List.length_replicate, rfl⟩, ⟨List.replicate 3585 0xAA, by rw [List.length_replicate]; decide⟩⟩

/-- TickCountsDown, the event clause: ST = 1, and ST = 0. -/
theorem witness_TickCountsDown : soundEvent { State.reset with st := 1 } = true ∧ soundEvent State.reset = false := by decide

/-- CallPushesReturnAddress: the empty stack, one free entry, no free entry. -/
theorem witness_CallPushesReturnAddress : State.reset.sp.val < 16 ∧ { State.reset with sp := 15 }.sp.val < 16 ∧
    { State.reset with sp := 16 }.sp.val = 16 := by decide

/-- ReturnPopsAddress: one entry, sixteen, none. -/
theorem witness_ReturnPopsAddress : 0 < { State.reset with sp := 1 }.sp.val ∧ 0 < { State.reset with sp := 16 }.sp.val ∧
    State.reset.sp.val = 0 := by decide

/-- CallThenReturnComesBack: the sixteenth call, and the return right after it. -/
theorem witness_CallThenReturnComesBack : ∃ s t u : State, exec (.call 0x206#12) s = .next t ∧ t.fault = s.fault ∧ s.fault = none ∧
    u.sp = t.sp ∧ (∀ k : Fin stackDepth, u.stack[k] = t.stack[k]) ∧ s.sp.val = 15 :=
  ⟨{ State.reset with sp := 15 }, _, stepState { atWord 0x2206 with sp := 15 }, rfl, rfl, rfl, by decide, by decide, rfl⟩

/-- RegisterSkips: each condition true and false. -/
theorem witness_RegisterSkips : State.reset.reg 3 = (0#8) ∧ State.reset.reg 3 ≠ (1#8) ∧
    State.reset.reg 3 = State.reset.reg 4 ∧ (State.reset.setReg 3 1).reg 3 ≠ (State.reset.setReg 3 1).reg 4 := by decide

/-- KeySkips: the last key number, down and up, and the first number that is none. -/
theorem witness_KeySkips : ((State.reset.setReg 5 0x0F).reg 5).toNat = 0x0F ∧ (State.reset.setReg 5 0x0F).keyDown 0x0F = false ∧
    (setKeys 0x8000 (State.reset.setReg 5 0x0F)).keyDown 0x0F = true ∧ 0x0F < ((State.reset.setReg 5 0x10).reg 5).toNat := by decide

/-- NextPcTable: a call, a return, a skip and a key wait that end without a fault. -/
theorem witness_NextPcTable : (∃ t, exec (.call 0x206#12) State.reset = .next t ∧ t.fault = none) ∧
    (∃ t, exec .ret { State.reset with sp := 16 } = .next t ∧ t.fault = none) ∧
    (∃ t, exec (.skp 0) State.reset = .next t ∧ t.fault = none) ∧
    (∃ t, exec (.ldVxKey 0) State.reset = .next t ∧ t.fault = none) ∧ State.reset.fault = none :=
  ⟨⟨_, rfl, rfl⟩, ⟨_, rfl, rfl⟩, ⟨_, rfl, rfl⟩, ⟨_, rfl, rfl⟩, rfl⟩

/-- FlagAndResult, the three clauses of the ALU statements: X ≠ F, and X = F under each order. -/
theorem witness_FlagAndResult : (3 : Reg) ≠ regF ∧ State.reset.params.vfWriteOrder = .flagThenResult ∧
    (withParams (fun p => { p with vfWriteOrder := .resultThenFlag }) State.reset).params.vfWriteOrder = .resultThenFlag := by decide

/-- IndexAddReportsOverflow: the sums 0xFFF and 0x1000. -/
theorem witness_IndexAddReportsOverflow :
    ((State.reset.setIndex 0xFFF).i.toNat + ((State.reset.setIndex 0xFFF).reg 1).toNat = 0xFFF) ∧
    (0xFFF < (State.reset.setIndex 0x1000).i.toNat + ((State.reset.setIndex 0x1000).reg 1).toNat) := by decide

/-- BlockCheckFindsFirstFailure: blocks of 16 that fail at their first byte, at a later one, and not at all. -/
theorem witness_BlockCheckFindsFirstFailure : checkBlock defaultParams .write 0x04F 16 = some (.fontRegionWrite 0x04F) ∧
    checkBlock defaultParams .read 0xFF1 16 = some (.addressOutOfRange 0x1000) ∧ checkBlock defaultParams .write 0x050 16 = none ∧
    checkBlock defaultParams .write 0xFF0 16 = none := by decide

/-- Writable for FX33: the first and the last base, and a base in the font under the other policy. -/
theorem witness_BcdStoresDigits : MemoryCanonical State.reset ∧ Writable (State.reset.setIndex 0x050).base 3 (State.reset.setIndex 0x050) ∧
    Writable (State.reset.setIndex 0xFFD).base 3 (State.reset.setIndex 0xFFD) ∧
    Writable 0x04E 3 (withParams (fun p => { p with fontWrite := .allow }) State.reset) :=
  ⟨rfl, ⟨by decide, .inl (by decide)⟩, ⟨by decide, .inl (by decide)⟩, ⟨by decide, .inr rfl⟩⟩

/-- The two faults of FX33: the last base in the font, the first base whose block leaves M. -/
theorem witness_BcdStoresDigits_faults : (State.reset.setIndex 0x04F).base < fontSize ∧ State.reset.params.fontWrite = .fault ∧
    memSize < (State.reset.setIndex 0xFFE).base + 3 := by decide

/-- Writable for FX55 with X = F: the first and the last base. -/
theorem witness_BlockStoreWritesRegisters : MemoryCanonical State.reset ∧
    Writable (State.reset.setIndex 0x050).base ((15 : Reg).val + 1) State.reset ∧
    Writable (State.reset.setIndex 0xFF0).base ((15 : Reg).val + 1) State.reset :=
  ⟨rfl, ⟨by decide, .inl (by decide)⟩, ⟨by decide, .inl (by decide)⟩⟩

/-- The two faults of FX55 with X = F. -/
theorem witness_BlockStoreWritesRegisters_faults : (State.reset.setIndex 0x04F).base < fontSize ∧
    State.reset.params.fontWrite = .fault ∧ memSize < (State.reset.setIndex 0xFF1).base + ((15 : Reg).val + 1) := by decide

/-- Readable for FX65 with X = F: the first and the last base; and a base whose block leaves M. -/
theorem witness_BlockLoadReadsRegisters : Readable (State.reset.setIndex 0).base ((15 : Reg).val + 1) ∧
    Readable (State.reset.setIndex 0xFF0).base ((15 : Reg).val + 1) ∧
    (0 < (15 : Reg).val + 1 ∧ memSize < (State.reset.setIndex 0xFF1).base + ((15 : Reg).val + 1)) :=
  ⟨.inr (by decide), .inr (by decide), by decide⟩

/-- The state after F255 at I = 0x300 with V0 = 1, V1 = 2, V2 = 3 (M18), with I set back. -/
def stored : State := (stepState ((((atWord 0xF255).setIndex 0x300).setReg 0 1).setReg 1 2)).setIndex 0x300

/-- StoreThenLoadRestoresRegisters. -/
theorem witness_StoreThenLoadRestoresRegisters : ∃ s t u : State, MemoryCanonical s ∧ Writable s.base ((2 : Reg).val + 1) s ∧
    exec (.storeRegs 2) s = .next t ∧ u.i = s.i ∧ ∀ a, u.byteAt a = t.byteAt a :=
  ⟨(((atWord 0xF255).setIndex 0x300).setReg 0 1).setReg 1 2, _, stored, rfl, ⟨by decide, .inl (by decide)⟩, rfl, by decide,
    fun _ => rfl⟩

/-- StoreIsSeenByFetch: the word the store wrote at 0x300 and 0x301. -/
theorem witness_StoreIsSeenByFetch : ∃ s t u : State, MemoryCanonical s ∧ Writable s.base ((2 : Reg).val + 1) s ∧
    exec (.storeRegs 2) s = .next t ∧ (0 : Reg).val + 1 ≤ (2 : Reg).val ∧ (∀ a, u.byteAt a = t.byteAt a) ∧
    u.pc.toNat = s.base + (0 : Reg).val ∧ Fetchable u :=
  ⟨(((atWord 0xF255).setIndex 0x300).setReg 0 1).setReg 1 2, _, stored.setPc 0x300, rfl, ⟨by decide, .inl (by decide)⟩, rfl,
    by decide, fun _ => rfl, by decide, ⟨by decide, .inl (by decide)⟩⟩

/-- Every pixel 1, I at glyph 0, redraw clear. -/
def lit : State := { clearRedraw State.reset with fb := Vector.replicate fbH (BitVec.allOnes fbW) }

/-- A state with D011 where the next step fetches. -/
def thenDraw (s : State) : State := s.withFetchWord 16 0xD011

theorem lit_pixel {p : Nat} (h : p < 2048) : lit.pixel p = true := by
  have h1 : p / fbW < fbH := by simp only [fbW, fbH]; omega
  have h2 : p % 64 < 64 := by omega
  simp only [State.pixel, pixelAt, lit, clearRedraw, dif_pos h1, Vector.getElem_replicate, BitVec.getLsbD_allOnes, fbW, h2, decide_true]

/-- DrawXorsSpriteIntoScreen: no row at an unreadable I, fifteen rows at the last base, and a fault; a set bit of glyph 0
lands on pixel 0. -/
theorem witness_DrawXorsSpriteIntoScreen : Readable (State.reset.setIndex 0xFFFF).base 0 ∧ Readable (State.reset.setIndex 0xFF1).base 15 ∧
    (0 < 15 ∧ memSize < (State.reset.setIndex 0xFF2).base + 15) ∧ SpriteCovers State.reset 0 1 5 0 ∧
    ¬ SpriteCovers (State.reset.setIndex 0x300) 0 1 0 0 :=
  ⟨.inl rfl, .inr (by decide), by decide, ⟨0, 0, ⟨by decide, by decide, by decide⟩, rfl⟩,
    fun ⟨_, _, ⟨h, _⟩, _⟩ => absurd h (Nat.not_lt_zero _)⟩

/-- DrawXorsSpriteIntoScreen, its clauses on VF: a covered pixel that is 1 (D3), and no such pixel, under each value of
`DRAW_VF_CLEAR` (D5, D6). -/
theorem witness_DrawXorsSpriteIntoScreen_collision : Readable lit.base 1 ∧ (SpriteCovers lit 0 1 1 0 ∧ lit.pixel 0 = true) ∧
    (∀ p, ¬ (SpriteCovers State.reset 0 1 0 p ∧ State.reset.pixel p = true)) ∧ State.reset.params.drawVfClear = true ∧
    (withParams (fun q => { q with drawVfClear := false }) State.reset).params.drawVfClear = false :=
  ⟨.inr (by decide), ⟨⟨0, 0, ⟨by decide, by decide, by decide⟩, rfl⟩, by decide⟩,
    fun _ ⟨⟨_, _, ⟨h, _⟩, _⟩, _⟩ => absurd h (Nat.not_lt_zero _), rfl, rfl⟩

/-- DrawTwiceRestoresScreen: D015 at (0, 0) on a blank screen (V8), then the same draw again. -/
theorem witness_DrawTwiceRestoresScreen : ∃ s t u : State, Readable s.base 5 ∧ exec (.drw 0 1 5) s = .next t ∧ u.i = s.i ∧
    u.reg 0 = s.reg 0 ∧ u.reg 1 = s.reg 1 ∧ u.params = s.params ∧ (∀ a, u.byteAt a = s.byteAt a) ∧ (∀ p, u.pixel p = t.pixel p) ∧
    s.pixel 0 = false ∧ t.pixel 0 = true :=
  ⟨State.reset, _, { State.reset with fb := (stepState (atWord 0xD015)).fb }, .inr (by decide), rfl, rfl, rfl, rfl, rfl,
    fun _ => rfl, fun _ => rfl, by decide, by decide⟩

/-- DrawTwiceRestoresScreen, the other clause: on a lit screen the first draw only clears pixels. -/
theorem witness_DrawTwiceRestoresScreen_only_clears : ∃ t, Readable lit.base 1 ∧ exec (.drw 0 1 1) lit = .next t ∧
    lit.pixel 0 = true ∧ t.pixel 0 = false ∧ ¬ ∃ p, lit.pixel p = false ∧ t.pixel p = true := by
  refine ⟨_, .inr (by decide), rfl, by decide, by decide, fun ⟨p, hp, ht⟩ => ?_⟩
  by_cases h : p < 2048
  · rw [lit_pixel h] at hp; cases hp
  · exact absurd ht (by
      have hn : ¬ p / fbW < fbH := by simp only [fbW, fbH]; omega
      simp only [State.pixel, pixelAt, dif_neg hn]; decide)

/-- SecondDrawReportsDrawnPixels, the three clauses on the covered pixels: a covered 0, covered pixels that are all 1, and
covered pixels that are all 0, on a blank and on a lit screen; the premises on t and u are those of DrawTwiceRestoresScreen. -/
theorem witness_SecondDrawReportsDrawnPixels : (SpriteCovers State.reset 0 1 5 0 ∧ State.reset.pixel 0 = false) ∧
    (SpriteCovers lit 0 1 1 0 ∧ ∀ p, SpriteCovers lit 0 1 1 p → lit.pixel p = true) ∧
    (∀ p, SpriteCovers State.reset 0 1 5 p → State.reset.pixel p = false) ∧ State.reset.params.drawVfClear = true :=
  ⟨⟨⟨0, 0, ⟨by decide, by decide, by decide⟩, rfl⟩, by decide⟩,
    ⟨⟨0, 0, ⟨by decide, by decide, by decide⟩, rfl⟩, fun p ⟨r, c, _, h⟩ => lit_pixel (by
      have h' : p = (0 + c) % 64 + 64 * ((0 + r) % 32) := h
      omega)⟩,
    fun p _ => pixelAt_blank p, rfl⟩

/-- The case on which R104 and R106 (b) differ (log 20): glyph row F0 drawn twice on a lit screen. R104's pseudocode, by
hand: the first draw meets four 1s (VF = 1) and clears them, the second meets four 0s (VF = 0) and restores them. -/
theorem test_drw_twice_on_lit : (stepState (thenDraw lit)).reg regF = 1 ∧
    (stepState (thenDraw (stepState (thenDraw lit)))).reg regF = 0 ∧ (stepState (thenDraw (stepState (thenDraw lit)))).fb = lit.fb := by decide

/-- Vector D2's start state, but for a screen that already shows glyph 0. -/
def glyphLit : State := { atWord 0xD015 with fb := (stepState (atWord 0xD015)).fb }

/-- Why no model over R14's record meets R106 (b) in that case (log 20): with VF, pc and redraw set back, the state after
the first draw IS the start state of vector D2, for which D2 gives VF = 0 and R106 (b), as a second draw, VF = 1. -/
theorem test_second_draw_is_vector_D2 : clearRedraw (((stepState glyphLit).setReg regF 0).setPc 0x200#16) = atWord 0xD015 ∧
    (stepState glyphLit).reg regF = 1 ∧ (stepState (atWord 0xD015)).reg regF = 0 := by decide

/-- SpriteOrderIsUnobservable: fifteen rows, and an order that is not the sprite's own. -/
theorem witness_SpriteOrderIsUnobservable : (List.replicate 15 (0xFF : Byte)).length ≤ 15 ∧
    [3, 0, 1, 2].Perm (spritePixels .wrap 0 0 0 [0xF0]) ∧ LandsOn .wrap 60 31 7 14 (3 + 64 * 13) :=
  ⟨by decide, by decide, rfl⟩

/-- KeyWait: no key, and the last key; the word at pc is the FX0A; `lowest` as well. -/
theorem witness_KeyWait : (∀ k, State.reset.keyDown k = false) ∧ (setKeys 0x8000 State.reset).keyDown 15 = true ∧
    (withParams (fun p => { p with keySelect := .lowest }) State.reset).params.keySelect = .lowest ∧
    ((atWord 0xF30A).fault = none ∧ Fetchable (atWord 0xF30A) ∧ decode (wordAtPc (atWord 0xF30A)) = .ok (.ldVxKey 3)) :=
  ⟨fun _ => BitVec.getLsbD_zero, by decide, by decide, rfl, ⟨by decide, .inl (by decide)⟩, by decide⟩

/-- StepRunsDecodedInstruction: at the last even pc. -/
theorem witness_StepRunsDecodedInstruction : ∃ s : State, s.fault = none ∧ Fetchable s ∧ decode (wordAtPc s) = .ok .cls :=
  ⟨(State.reset.setPc 0xFFE).withFetchWord 16 0x00E0, rfl, ⟨by decide, .inl (by decide)⟩, by decide⟩

/-- StepSkipsUnknownWord: the word 0000 at reset. -/
theorem witness_StepSkipsUnknownWord : State.reset.fault = none ∧ Fetchable State.reset ∧
    decode (wordAtPc State.reset) = .error (.unknownOpcode 0) :=
  ⟨rfl, ⟨by decide, .inl (by decide)⟩, by decide⟩

/-- FaultedCoreIsStuck and FaultHoldsUntilInitialize: F8, and a sequence of the four operations. -/
theorem witness_FaultedCoreIsStuck : (State.reset.setFault (.stackUnderflow 0x212)).fault = some (.stackUnderflow 0x212) ∧
    ∀ op ∈ [HostOp.step, .tick, .clearRedraw, .setKeys 1], op = .step ∨ op = .tick ∨ op = .clearRedraw ∨ ∃ k, op = .setKeys k :=
  ⟨rfl, by simp⟩

/-- FetchFaults: an odd pc; the last even pc above M's end (V1's neighbour 0x1000); the last byte of M under `fetch`. -/
theorem witness_FetchFaults : (State.reset.setPc 0xFFF).pc.toNat % 2 = 1 ∧ State.reset.params.pcOdd = .fault ∧
    ((State.reset.setPc 0x1000).pc.toNat % 2 = 0 ∧ 0xFFF < (State.reset.setPc 0x1000).pc.toNat) ∧
    (withParams (fun p => { p with pcOdd := .fetch }) State.reset).params.pcOdd = .fetch ∧ (State.reset.setPc 0xFFF).pc.toNat = 0xFFF := by
  decide

/-- FaultsArePrecise: a step that raises. -/
theorem witness_FaultsArePrecise : ∃ s t : State, s.fault = none ∧ step s = .next t ∧ t.fault = some (.stackUnderflow 0x200) :=
  ⟨atWord 0x00EE, _, rfl, rfl, by decide⟩

/-- IdleStateStays: P1's last jump, moved to 0x200. -/
theorem witness_IdleStateStays : Idle (atWord 0x1200) ∧ Fetchable (atWord 0x1200) :=
  ⟨⟨rfl, by decide, by decide⟩, ⟨by decide, .inl (by decide)⟩⟩

/-- OnlyDestinationsAndFlagChange, OtherStateHasItsWriters: a destination, the flag register, I, a timer, the stack. -/
theorem witness_OnlyDestinationsAndFlagChange : (∃ t, exec (.ldByte 3 1#8) State.reset = .next t ∧ t.reg 3 ≠ State.reset.reg 3) ∧
    (∃ t, exec (.sub 0 1) State.reset = .next t ∧ t.reg regF ≠ State.reset.reg regF) ∧
    (∃ t, exec (.ldI 1#12) State.reset = .next t ∧ t.i ≠ State.reset.i) ∧
    (∃ t, exec (.ldDtVx 3) (State.reset.setReg 3 1) = .next t ∧ t.dt ≠ 0) ∧
    (∃ t, exec (.call 0#12) State.reset = .next t ∧ t.sp ≠ State.reset.sp ∧ t.stack[0] ≠ State.reset.stack[0]) :=
  ⟨⟨_, rfl, by decide⟩, ⟨_, rfl, by decide⟩, ⟨_, rfl, by decide⟩, ⟨_, rfl, by decide⟩, ⟨_, rfl, by decide, by decide⟩⟩

/-- ScreenChangesOnlyByDisplayInstructions: a draw that changes a pixel and the redraw flag. -/
theorem witness_ScreenChangesOnlyByDisplayInstructions : ∃ t, exec (.drw 0 1 5) (clearRedraw State.reset) = .next t ∧
    t.pixel 0 ≠ (clearRedraw State.reset).pixel 0 ∧ t.redraw ≠ (clearRedraw State.reset).redraw :=
  ⟨_, rfl, by decide, by decide⟩

/-- MemoryChangesOnlyByStores: FX33 changes the byte at I + 2, FX55 with X = F the byte at I + 15. -/
theorem witness_MemoryChangesOnlyByStores : (∃ s t : State, exec (.ldBcd 0) s = .next t ∧ t.byteAt 0x302 ≠ s.byteAt 0x302) ∧
    ∃ s t : State, exec (.storeRegs 15) s = .next t ∧ t.byteAt 0x30F ≠ s.byteAt 0x30F :=
  ⟨⟨(State.reset.setIndex 0x300).setReg 0 7, _, rfl, by decide⟩, ⟨(State.reset.setIndex 0x300).setReg 15 7, _, rfl, by decide⟩⟩

/-- OnlyInitializeWritesFont: a load, the last font byte. -/
theorem witness_OnlyInitializeWritesFont : State.reset.params.fontWrite = .fault ∧ HostOp.load [1] ≠ .init ∧ 79 < 80 := by decide

/-- A state of the middle of a run: a store about to be made, one return address on the stack, a byte written. -/
def midRun : State := { ((atWord 0xF255).setIndex 0x300).setByte 0x400 0x77 with sp := 1, stack := Vector.replicate 16 0x206#16 }

/-- StepKeepsInvariant. -/
theorem witness_StepKeepsInvariant : ∃ t, Inv midRun ∧ step midRun = .next t :=
  ⟨_, ⟨by unfold PcBounded; decide, by unfold StackBounded; decide, rfl, fun _ => by unfold FontIntact; decide, trivial⟩, rfl⟩

/-- LegalRunsKeepInvariant: a load right after initialize, after each operation R126 lets come between, and no load. -/
theorem witness_LegalRunsKeepInvariant : legalRun ([.init, .load [0x22, 0x00]] ++ [.step, .tick, .setKeys 1, .step]) = true ∧
    legalRun ([.init, .tick, .setKeys 1, .clearRedraw, .init, .load [0x22, 0x00]] ++ [.step, .init]) = true ∧
    legalRun ([.init] ++ [.step]) = true ∧ [HostOp.init] ≠ [] := by decide

/-- R126: a second load, a load after a step, and an operation before initialize are not the host's. -/
theorem test_legalRun_refuses : legalRun [.init, .load [], .load []] = false ∧ legalRun [.init, .step, .load []] = false ∧
    legalRun [.load [], .init] = false ∧ legalRun [.step] = false := by decide

/-- HostOperationsKeepInvariant: a load in the middle of a run. -/
theorem witness_HostOperationsKeepInvariant : Inv midRun ∧ (hostState (.load [0x22]) midRun).byteAt 0x200 = 0x22 :=
  ⟨witness_StepKeepsInvariant.choose_spec.1, by decide⟩

/-- DecodeOfEncode and EncodeOfDecode: the largest operands. -/
theorem witness_DecodeOfEncode : (Instr.drw 15 15 15).WellFormed ∧ decode 0xDFFF#16 = .ok (.drw 15 15 15) := by decide

/-- DecoderIsFirstTableMatch: words that select the first and the last row, and none. -/
theorem witness_DecoderIsFirstTableMatch : firstRow 0x00E0#16 = some 0 ∧ firstRow 0xFF65#16 = some 33 ∧ firstRow 0x0000#16 = none := by
  decide

end Sys2Proof.Tests
end

section
/-! PROOFS. Statements of the state family: reset, the ports that write one piece of state, what a faulted core keeps,
and who writes what. The claims over all instructions rest on `exec_keeps` and on the two lists of `Laws/Exec.lean`. -/

namespace Sys2Proof.Machine

/-! ## Reset (R31, R130) -/

/-- After `initCore` memory reads as its reset content: the font table, then zeros. -/
@[simp] theorem State.byteAt_initCore (s : State) (a : Nat) : (initCore s).byteAt a = resetByte s.params.fontTable a := rfl

@[simp] theorem State.pixel_initCore (s : State) (n : Nat) : (initCore s).pixel n = false := pixelAt_blank n

theorem resetByte_font (font : Vector Byte fontSize) (a : Fin fontSize) : resetByte font a.val = font[a] := by
  simp [resetByte]

theorem resetByte_past_font (font : Vector Byte fontSize) {a : Nat} (h : fontSize ≤ a) : resetByte font a = 0 := by
  simp [resetByte, Nat.not_lt.mpr h]

/-- Settles O1: every field of `initCore` at its reset value; memory reads as the font table and then zeros. -/
theorem initializeResetsEverything : Obligations.InitializeResetsEverything := by
  refine ⟨fun s => ⟨fun r => ?reg, rfl, rfl, fun k => ?entry, rfl, rfl, rfl, fun a => ?font,
    fun a ha _ => ?rest, s.pixel_initCore, rfl, fun k => ?key, rfl, rfl⟩, rfl⟩
  case reg => simp [State.reg]
  case entry => simp
  case font => exact resetByte_font _ a
  case rest => exact resetByte_past_font _ ha
  case key => simp [State.keyDown]

/-- A state at its reset values has the invariant, whatever its parameters and its supply of free values. -/
theorem inv_resetWith (p : Params) (n : Nat) : Inv (State.resetWith p n) where
  pcBounded := by simp [PcBounded, State.resetWith]
  stackBounded := fun k => by simp [State.resetWith]
  memoryCanonical := State.wf_resetWith p n
  fontIntact := fun _ k => resetByte_font p.fontTable k
  faultInfo := trivial

/-- Settles O47: `inv_resetWith` at the default parameters. -/
theorem resetHasInvariant : Obligations.ResetHasInvariant := inv_resetWith defaultParams 0

/-! ## The ports that write timers, keypad and redraw flag (R122, R125) -/

theorem keeps_tick (s : State) : KeepsAllBut [] [.delay, .sound] s (tick s) :=
  ⟨fun _ _ => rfl, fun p hp => by cases p <;> simp_all [sameIn, State.byteAt, State.pixel, State.keyDown], rfl⟩

theorem keeps_setKeys (s : State) (k : Keypad) : KeepsAllBut [] [.keypad] s (setKeys k s) :=
  ⟨fun _ _ => rfl, fun p hp => by cases p <;> simp_all [sameIn, State.byteAt, State.pixel], rfl⟩

theorem keeps_clearRedraw (s : State) : KeepsAllBut [] [.redraw] s (clearRedraw s) :=
  ⟨fun _ _ => rfl, fun p hp => by cases p <;> simp_all [sameIn, State.byteAt, State.pixel, State.keyDown], rfl⟩

/-- Settles O4: the written field by definition, the rest by the ports' frames. -/
theorem keypadAndRedrawPorts : Obligations.KeypadAndRedrawPorts :=
  fun s k => ⟨fun _ => rfl, rfl, keeps_setKeys s k, rfl, rfl, keeps_clearRedraw s⟩

/-! ## A faulted core (R60, R119) -/

/-- The step of a faulted core changes nothing (R60). -/
theorem stepState_of_faulted {s : State} {f : Fault} (h : s.fault = some f) : stepState s = s := by
  simp [stepState, step, h]

/-- What the fault leaves standing from `s` on: the fault itself, pc, and all but the timers, the keypad and redraw. -/
def FrozenSince (f : Fault) (s t : State) : Prop :=
  t.fault = some f ∧ t.pc = s.pc ∧ KeepsAllBut [] [.delay, .sound, .keypad, .redraw] s t

theorem FrozenSince.refl {f : Fault} {s : State} (h : s.fault = some f) : FrozenSince f s s :=
  ⟨h, rfl, (KeepsAllBut.refl s).mono (List.nil_subset _) (List.nil_subset _)⟩

/-- An operation that keeps fault and pc, and writes no more than timers, keypad and redraw, leaves the freeze standing. -/
theorem FrozenSince.extend {f : Fault} {s t u : State} {ps : List Piece} (h : FrozenSince f s t) (hf : u.fault = t.fault)
    (hpc : u.pc = t.pc) (hk : KeepsAllBut [] ps t u) (hps : ps ⊆ [.delay, .sound, .keypad, .redraw]) : FrozenSince f s u := by
  obtain ⟨hf', hpc', hk'⟩ := h
  exact ⟨hf.trans hf', hpc.trans hpc', (hk'.trans hk).mono (by simp) (List.append_subset.mpr ⟨List.Subset.refl _, hps⟩)⟩

/-- Settles O39: each of the four operations extends the freeze, so a run of them does (`hostRun_keeps`). -/
theorem faultHoldsUntilInitialize : Obligations.FaultHoldsUntilInitialize := by
  intro ops s f hf hops
  refine hostRun_keeps (P := FrozenSince f s) (fun op hop t ht => ?_) (FrozenSince.refl hf)
  rcases hops op hop with rfl | rfl | rfl | ⟨k, rfl⟩
  · simpa only [hostState, stepState_of_faulted ht.1] using ht
  · exact ht.extend rfl rfl (keeps_tick t) (by simp)
  · exact ht.extend rfl rfl (keeps_clearRedraw t) (by simp)
  · exact ht.extend rfl rfl (keeps_setKeys t k) (by simp)

/-! ## Who writes what: the frame of every instruction -/

/-- An answered instruction, faulting or not, keeps all but its registers, its pieces and the fault status. -/
theorem exec_keeps {i : Instr} {s t : State} (h : exec i s = .next t) :
    KeepsAllBut (frameRegs i) (.fault :: framePieces i) s t := by
  rcases exec_inv h with ⟨f, rfl⟩ | ⟨-, -, hk⟩
  · exact (keeps_setFault s f).mono (List.nil_subset _) (by simp)
  · exact hk.mono (List.Subset.refl _) (List.subset_cons_self _ _)

/-- A piece that differs after an instruction, the fault status aside, is one of the instruction's pieces. -/
theorem mem_framePieces_of_changed {i : Instr} {s t : State} (h : exec i s = .next t) {p : Piece} (hp : p ≠ .fault)
    (hd : ¬ sameIn p s t) : p ∈ framePieces i := by
  obtain ⟨-, hpieces, -⟩ := exec_keeps h
  by_contra hn
  exact hd (hpieces p (by simp [hp, hn]))

/-- The registers an instruction may write are its destinations, and VF if it produces a flag (R16, R17). -/
theorem destination_or_flag_of_mem_frameRegs {i : Instr} {r : Reg} (h : r ∈ frameRegs i) :
    destinations i r ∨ (r = regF ∧ writesFlag i = true) := by
  cases i with
  | addReg x y | sub x y | shr x y | subn x y | shl x y =>
    rcases List.mem_pair.mp h with hx | hF
    · exact .inl hx
    · exact .inr ⟨hF, rfl⟩
  | drw x y n => exact .inr ⟨List.mem_singleton.mp h, rfl⟩
  | addI x => exact .inr ⟨List.mem_singleton.mp h, rfl⟩
  | ldByte x _ | addByte x _ | ldReg x _ | orReg x _ | andReg x _ | xorReg x _ | rnd x _ | ldVxDt x | ldVxKey x =>
    exact .inl (List.mem_singleton.mp h)
  | loadRegs x => exact .inl (of_decide_eq_true (p := r ≤ x) (List.mem_filter.mp h).2)
  | cls | ret | jp _ | call _ | seByte _ _ | sneByte _ _ | seReg _ _ | sneReg _ _ | ldI _ | jpV0 _ | skp _ | sknp _
  | ldDtVx _ | ldStVx _ | ldFont _ | ldBcd _ | storeRegs _ => exact absurd h List.not_mem_nil

/-- Settles O41: a register that differs is outside the frame, and the frame's registers are those R16 and R17 list. -/
theorem onlyDestinationsAndFlagChange : Obligations.OnlyDestinationsAndFlagChange := by
  intro i s t r h hne
  obtain ⟨hregs, -, -⟩ := exec_keeps h
  by_contra hn
  exact hne (hregs r (fun hr => hn (destination_or_flag_of_mem_frameRegs hr)))

/-! ## The writers of each piece: `framePieces` read backwards -/

theorem pixels_or_redraw_mem_framePieces {i : Instr} (h : .pixels ∈ framePieces i ∨ .redraw ∈ framePieces i) :
    i = .cls ∨ ∃ x y n, i = .drw x y n := by
  cases i <;> simp [framePieces] at h ⊢

theorem index_mem_framePieces {i : Instr} (h : .index ∈ framePieces i) :
    (∃ nnn, i = .ldI nnn) ∨ ∃ x, i = .addI x ∨ i = .ldFont x ∨ i = .storeRegs x ∨ i = .loadRegs x := by
  cases i <;> simp [framePieces] at h ⊢

theorem stack_mem_framePieces {i : Instr} (h : .stack ∈ framePieces i) : i = .ret ∨ ∃ nnn, i = .call nnn := by
  cases i <;> simp [framePieces] at h ⊢

theorem delay_mem_framePieces {i : Instr} (h : .delay ∈ framePieces i) : ∃ x, i = .ldDtVx x := by
  cases i <;> simp [framePieces] at h ⊢

theorem sound_mem_framePieces {i : Instr} (h : .sound ∈ framePieces i) : ∃ x, i = .ldStVx x := by
  cases i <;> simp [framePieces] at h ⊢

theorem keypad_notMem_framePieces (i : Instr) : .keypad ∉ framePieces i := by
  cases i <;> simp [framePieces]

/-! ## The screen (R26, R27) -/

@[simp] theorem State.redraw_writeCollision (s : State) (hit : Bool) : (s.writeCollision hit).redraw = s.redraw := by
  rw [State.writeCollision_eq_v]

@[simp] theorem State.redraw_draw (s : State) (x y : Reg) (rows : List Byte) : (s.draw x y rows).redraw = true := by
  simp [State.draw]

/-- DXYN faults precisely, or draws some rows and goes on. -/
theorem execDrw_cases {x y : Reg} {n : Nat} {s t : State} (h : execDrw x y n s = .next t) :
    (∃ f, t = s.setFault f) ∨ ∃ rows, t = (s.draw x y rows).advance := by
  unfold execDrw at h
  split at h
  · next f _ => cases h; exact .inl ⟨f, rfl⟩
  · next rows _ => cases h; exact .inr ⟨rows, rfl⟩

/-- A display instruction that does not fault leaves the redraw flag set. -/
theorem redraw_of_display {i : Instr} {s t : State} (h : exec i s = .next t) (hi : i = .cls ∨ ∃ x y n, i = .drw x y n) :
    (∃ f, t = s.setFault f) ∨ t.redraw = true := by
  rcases hi with rfl | ⟨x, y, n, rfl⟩
  · cases h; exact .inr rfl
  · rcases execDrw_cases h with hf | ⟨rows, rfl⟩
    · exact .inl hf
    · exact .inr (by simp)

/-- An instruction that changes a screen piece is a display instruction, and has not faulted. -/
theorem display_of_screen_changed {i : Instr} {s t : State} {p : Piece} (h : exec i s = .next t)
    (hp : p = .pixels ∨ p = .redraw) (hd : ¬ sameIn p s t) : (i = .cls ∨ ∃ x y n, i = .drw x y n) ∧ t.redraw = true := by
  have hpf : p ≠ .fault := by rcases hp with rfl | rfl <;> decide
  have hmem := mem_framePieces_of_changed h hpf hd
  have hi : i = .cls ∨ ∃ x y n, i = .drw x y n :=
    pixels_or_redraw_mem_framePieces (by rcases hp with rfl | rfl <;> simp [hmem])
  refine ⟨hi, (redraw_of_display h hi).resolve_left ?_⟩
  rintro ⟨f, rfl⟩
  obtain ⟨-, hkept, -⟩ := keeps_setFault s f
  exact hd (hkept p (by simpa using hpf))

/-- Settles O42: pixels and redraw flag are the two screen pieces. -/
theorem screenChangesOnlyByDisplayInstructions : Obligations.ScreenChangesOnlyByDisplayInstructions :=
  fun _ _ _ h =>
    ⟨fun ⟨n, hn⟩ => display_of_screen_changed h (.inl rfl) (fun hs => hn (hs n)),
      fun hr => display_of_screen_changed h (.inr rfl) hr⟩

/-! ## Index register, stack, timers, keypad (R19, R21, R22, R28) -/

/-- 00EE clears no entry (R72). -/
theorem stack_of_exec_ret {s t : State} (h : exec .ret s = .next t) : t.stack = s.stack := by
  cases hp : s.pop with
  | none => simp only [exec, execRet, hp, raise] at h; cases h; rfl
  | some wu =>
    obtain ⟨-, -, -, -, hstack, -, -⟩ := pop_some (w := wu.1) (t := wu.2) hp
    simp only [exec, execRet, hp] at h
    cases h
    exact hstack

/-- Keypads that agree on every key are equal. -/
theorem key_eq_of_sameIn {s t : State} (h : sameIn .keypad s t) : t.key = s.key :=
  BitVec.eq_of_getLsbD_eq fun k _ => h k

/-- Settles O44: a piece that differs is in the instruction's frame; for a stack entry 00EE is excluded beside. -/
theorem otherStateHasItsWriters : Obligations.OtherStateHasItsWriters := by
  intro i s t h
  have changed {p : Piece} (hp : p ≠ .fault) (hd : ¬ sameIn p s t) := mem_framePieces_of_changed h hp hd
  obtain ⟨-, hpieces, hparams⟩ := exec_keeps h
  refine ⟨fun hi => index_mem_framePieces (changed (by decide) hi),
    fun hsp => stack_mem_framePieces (changed (by decide) fun hs => hsp hs.1), ?entry,
    fun hdt => delay_mem_framePieces (changed (by decide) hdt),
    fun hst => sound_mem_framePieces (changed (by decide) hst),
    key_eq_of_sameIn (hpieces .keypad (by simp [keypad_notMem_framePieces])), hparams⟩
  case entry =>
    rintro ⟨k, hk⟩
    refine (stack_mem_framePieces (changed (by decide) fun hs => hk (hs.2 k))).resolve_left ?_
    rintro rfl
    exact hk (by rw [stack_of_exec_ret h])

/-! ## FX1E (R96) -/

theorem flagByte_toNat (c : Bool) : (flagByte c).toNat = if c then 1 else 0 := by cases c <;> rfl

theorem indexFlag_toNat (i : Word) (b : Byte) : (indexFlag i b).toNat = if 0xFFF < i.toNat + b.toNat then 1 else 0 := by
  simp [indexFlag, flagByte_toNat]

theorem indexPlus_toNat (i : Word) (n : Nat) : (indexPlus i n).toNat = (i.toNat + n) % 65536 := BitVec.toNat_ofNat ..

/-- Settles O21: the state FX1E answers, its I and VF by the operations' values, the rest by composed frames. -/
theorem indexAddReportsOverflow : Obligations.IndexAddReportsOverflow := fun x s =>
  ⟨_, rfl, indexPlus_toNat _ _, by simp [indexFlag_toNat], rfl,
    by simpa using ((keeps_setReg s regF _).trans (keeps_setIndex _ _)).trans (keeps_advance _)⟩

end Sys2Proof.Machine
end

section
/-! PROOFS. Statements of the memory family: the block check, the faults of a fetch, who writes memory, the invariant
of every step, and the round trip through the encoder. What an instruction answers, pc, fault and memory list included,
is said once in `exec_raises_or_proceeds`; the statements about memory and the invariant follow from it. -/

namespace Sys2Proof.Machine

/-! ## The checks (R34-R38) -/

/-- A single address fails above 0xFFF, or as a write into a guarded font, and in no other way (R34, R37). -/
theorem checkByte_some_iff (p : Params) (kind : AccessKind) (b : Nat) (f : Fault) :
    checkByte p kind b = some f ↔
      (0xFFF < b ∧ f = .addressOutOfRange b) ∨
      (b ≤ 0x04F ∧ kind = .write ∧ p.fontWrite = .fault ∧ f = .fontRegionWrite b) := by
  unfold checkByte
  by_cases hr : 0xFFF < b
  · have hb : ¬ b ≤ 0x04F := by omega
    simp [hr, hb, eq_comm]
  · by_cases hg : kind = .write ∧ b ≤ 0x04F ∧ p.fontWrite = .fault
    · simp [hr, hg, eq_comm]
    · rw [if_neg hr, if_neg hg]
      simp only [reduceCtorEq, false_iff, not_or]
      exact ⟨fun h => hr h.1, fun ⟨hb, hk, hp, _⟩ => hg ⟨hk, hb, hp⟩⟩

/-- Settles O22: the block check by induction (`checkBlock_some_iff`), the byte check by its branches; 16 bytes do not
reach from the font to the end of memory. -/
theorem blockCheckFindsFirstFailure : Obligations.BlockCheckFindsFirstFailure := by
  refine fun p kind a n => ⟨checkBlock_some_iff p kind a n, checkByte_some_iff p kind, ?_⟩
  rintro hn ⟨⟨k, hk, hlow⟩, j, hj, hhigh⟩
  omega

/-- The check of a fetch in terms of the pc's number (R40, R61). -/
theorem checkFetchAlign_eq (p : Params) (pc : Word) :
    checkFetchAlign p pc = if pc.toNat % 2 = 1 ∧ p.pcOdd = .fault then some (.misalignedFetch pc) else none := by
  have hbit : pc.getLsbD 0 = true ↔ pc.toNat % 2 = 1 := by
    rw [← BitVec.testBit_toNat, Nat.testBit_zero, decide_eq_true_eq]
  simp only [checkFetchAlign, hbit]

/-- A byte read fails above 0xFFF only (R35). -/
theorem memRead_eq (s : State) (a : Nat) :
    s.memRead a = if 0xFFF < a then .error (.addressOutOfRange a) else .ok (s.byteAt a) := by
  rw [State.memRead, checkByte_read]
  by_cases h : 0xFFF < a <;> simp [h]

/-! ## The faults of a fetch (R61, R117) -/

/-- The fetch, check by check: the alignment of pc, the address pc, the address pc + 1. -/
theorem fetch_eq (s : State) :
    fetch s =
      if s.pc.toNat % 2 = 1 ∧ s.params.pcOdd = .fault then .error (.misalignedFetch s.pc)
      else if 0xFFF < s.pc.toNat then .error (.addressOutOfRange s.pc.toNat)
      else if s.pc.toNat = 0xFFF then .error (.addressOutOfRange 0x1000)
      else .ok (wordAtPc s) := by
  rw [fetch, checkFetchAlign_eq]
  by_cases hodd : s.pc.toNat % 2 = 1 ∧ s.params.pcOdd = .fault
  · simp only [if_pos hodd]
  · simp only [if_neg hodd, memRead_eq]
    by_cases hpc : 0xFFF < s.pc.toNat
    · simp [hpc]
    · by_cases hlast : s.pc.toNat = 0xFFF
      · simp [hlast]
      · have hnext : ¬ 0xFFF < s.pc.toNat + 1 := by omega
        simp only [if_neg hpc, if_neg hlast, if_neg hnext]
        rfl

/-- A running core whose fetch fails raises the fetch's fault (R118). -/
theorem step_of_fetch_error {s : State} {f : Fault} (hs : s.fault = none) (h : fetch s = .error f) :
    step s = .next (s.setFault f) := by
  simp [step, hs, h, raise]

/-- Settles O36: each condition selects its branch of `fetch_eq`, and the step raises that branch's fault. -/
theorem fetchFaults : Obligations.FetchFaults := by
  intro s hs
  have raises {f : Fault} (h : fetch s = .error f) : ∃ t, step s = .next t ∧ FaultsWith f s t :=
    ⟨_, step_of_fetch_error hs h, faultsWith_setFault s f⟩
  refine ⟨fun hodd hp => raises (by rw [fetch_eq, if_pos ⟨hodd, hp⟩]), fun h => ?_⟩
  have haligned : ¬ (s.pc.toNat % 2 = 1 ∧ s.params.pcOdd = .fault) := by
    rintro ⟨hodd, hp⟩
    rcases h with heven | hfetch
    · omega
    · simp [hfetch] at hp
  exact ⟨fun hpc => raises (by rw [fetch_eq, if_neg haligned, if_pos hpc]),
    fun hpc => raises (by rw [fetch_eq, if_neg haligned, if_neg (by omega), if_pos hpc])⟩

/-! ## The fault information of R114 -/

theorem faultInfoRight_of_running {s : State} (h : s.fault = none) : FaultInfoRight s := by
  simp [FaultInfoRight, h]

/-- The faults of a failed block access carry an address their row of R114 allows. -/
theorem faultInfoRight_of_checkBlock {s : State} {kind : AccessKind} {a n : Nat} {f : Fault}
    (h : checkBlock s.params kind a n = some f) : FaultInfoRight (s.setFault f) := by
  obtain ⟨k, -, hk, -⟩ := (checkBlock_some_iff _ _ _ _ _).mp h
  rcases (checkByte_some_iff _ _ _ _).mp hk with ⟨ha, rfl⟩ | ⟨ha, -, hp, rfl⟩
  · exact ha
  · exact ⟨ha, hp⟩

theorem faultInfoRight_of_fetch {s : State} {f : Fault} (h : fetch s = .error f) : FaultInfoRight (s.setFault f) := by
  rw [fetch_eq] at h
  split at h
  · next hodd => cases h; exact ⟨rfl, hodd⟩
  · split at h
    · next hpc => cases h; exact hpc
    · split at h
      · cases h; exact Nat.lt_succ_self 0xFFF
      · cases h

/-! ## What an instruction does to pc, fault status and memory -/

/-- The values pc can take after an instruction that does not fault (R65): it stays, moves on by one word or two, goes
to NNN or to NNN plus a register, or to a stack entry. -/
inductive PcAfter (s : State) : Word → Prop where
  | stay : PcAfter s s.pc
  | next : PcAfter s (s.pc + 2#16)
  | skip : PcAfter s (s.pc + 4#16)
  | target (nnn : Addr) : PcAfter s (zextAddr nnn)
  | offset (nnn : Addr) (b : Byte) : PcAfter s (zextAddr nnn + zextByte b)
  | entry (k : Fin stackDepth) : PcAfter s s.stack[k]

/-- The bytes an instruction stores at I, for the two that store (R41). -/
def storedBytes (i : Instr) (s : State) : Option (List Byte) :=
  match i with
  | .ldBcd x => some (decimalDigits (s.reg x))
  | .storeRegs x => some (s.regsUpTo x)
  | _ => none

/-- `t` has the memory of `s` after the instruction's checked block write at I (R38). -/
def StoresAtIndex (i : Instr) (s t : State) : Prop :=
  ∃ bs, storedBytes i s = some bs ∧ checkBlock s.params .write s.base bs.length = none ∧ t.mem = (s.setBytes s.base bs).mem

/-- What an instruction that does not fault does to the fault status, to pc and to the memory list. -/
structure Proceeds (i : Instr) (s t : State) : Prop where
  fault : t.fault = s.fault
  pc : PcAfter s t.pc
  mem : t.mem = s.mem ∨ StoresAtIndex i s t

/-- An instruction that goes on to the next word without a store. -/
theorem Proceeds.advance {i : Instr} {s u : State} (hf : u.fault = s.fault) (hpc : u.pc = s.pc) (hm : u.mem = s.mem) :
    Proceeds i s u.advance :=
  ⟨hf, by rw [State.pc_advance, hpc]; exact .next, .inl hm⟩

/-- The same, where what went before wrote registers only. -/
theorem Proceeds.advance_of_v {i : Instr} {s u : State} (h : u = { s with v := u.v }) : Proceeds i s u.advance := by
  refine Proceeds.advance ?_ ?_ ?_ <;> rw [h]

theorem Proceeds.skipIf {i : Instr} (s : State) (c : Bool) : Proceeds i s (s.skipIf c) := by
  refine ⟨rfl, ?_, .inl rfl⟩
  cases c
  · exact .next
  · exact .skip

/-- The state raises a fault with the info of R114, or proceeds. -/
def RaisesOrProceeds (i : Instr) (s t : State) : Prop :=
  (∃ f, t = s.setFault f ∧ FaultInfoRight (s.setFault f)) ∨ Proceeds i s t

theorem keyTest_raises_or_proceeds {i : Instr} {want : Bool} {x : Reg} {s t : State} (h : keyTest want x s = .next t) :
    RaisesOrProceeds i s t := by
  unfold keyTest at h
  split at h
  · next hx => cases h; exact .inl ⟨_, rfl, hx, x, rfl⟩
  · cases h; exact .inr (Proceeds.skipIf s _)

@[simp] theorem State.fault_setBytes (bs : List Byte) (s : State) (a : Nat) : (s.setBytes a bs).fault = s.fault := by
  rw [State.setBytes_eq_mem]

@[simp] theorem State.pc_setBytes (bs : List Byte) (s : State) (a : Nat) : (s.setBytes a bs).pc = s.pc := by
  rw [State.setBytes_eq_mem]

/-- A store at I that goes on to the next word, with I changed or not. -/
theorem Proceeds.store {i : Instr} {s u : State} {bs : List Byte} (hb : storedBytes i s = some bs)
    (hc : checkBlock s.params .write s.base bs.length = none) (hu : u.mem = (s.setBytes s.base bs).mem)
    (hf : u.fault = s.fault) (hpc : u.pc = s.pc) : Proceeds i s u.advance :=
  ⟨hf, by rw [State.pc_advance, hpc]; exact .next, .inr ⟨bs, hb, hc, hu⟩⟩

theorem mem_of_push {s t : State} {w : Word} (h : s.push w = some t) : t.mem = s.mem := by
  unfold State.push at h
  split at h <;> cases h
  rfl

theorem mem_of_pop {s t : State} {w : Word} (h : s.pop = some (w, t)) : t.mem = s.mem := by
  unfold State.pop at h
  split at h <;> cases h
  rfl

theorem execRet_raises_or_proceeds {s t : State} (h : execRet s = .next t) : RaisesOrProceeds .ret s t := by
  unfold execRet at h
  split at h
  · next hp =>
    cases h
    have hempty : s.sp.val = 0 := pop_none hp
    exact .inl ⟨_, rfl, rfl, hempty⟩
  · next w u hp =>
    cases h
    obtain ⟨hpos, -, -, hfault, -, hentry, -⟩ := pop_some hp
    have hlt : s.sp.val - 1 < stackDepth := by have := s.sp.isLt; omega
    have hmem : u.mem = s.mem := mem_of_pop hp
    refine .inr ⟨hfault, ?_, .inl hmem⟩
    rw [State.pc_setPc, hentry ⟨_, hlt⟩ rfl]
    exact .entry _

theorem execCall_raises_or_proceeds {nnn : Addr} {s t : State} (h : execCall nnn s = .next t) :
    RaisesOrProceeds (.call nnn) s t := by
  unfold execCall at h
  split at h
  · next hp =>
    cases h
    have hfull : s.sp.val = stackDepth := push_none hp
    exact .inl ⟨_, rfl, rfl, hfull⟩
  · next u hp =>
    cases h
    obtain ⟨-, -, -, hfault, -, -⟩ := push_some hp
    have hmem : u.mem = s.mem := mem_of_push hp
    exact .inr ⟨hfault, .target nnn, .inl hmem⟩

theorem execLdBcd_raises_or_proceeds {x : Reg} {s t : State} (h : execLdBcd x s = .next t) :
    RaisesOrProceeds (.ldBcd x) s t := by
  unfold execLdBcd at h
  split at h
  · next f hf => cases h; exact .inl ⟨f, rfl, faultInfoRight_of_checkBlock (storeBlock_error hf)⟩
  · next u hu =>
    cases h
    obtain ⟨hc, rfl⟩ := storeBlock_ok hu
    exact .inr (.store rfl hc rfl (by simp) (by simp))

theorem execStoreRegs_raises_or_proceeds {x : Reg} {s t : State} (h : execStoreRegs x s = .next t) :
    RaisesOrProceeds (.storeRegs x) s t := by
  unfold execStoreRegs at h
  split at h
  · next f hf => cases h; exact .inl ⟨f, rfl, faultInfoRight_of_checkBlock (storeBlock_error hf)⟩
  · next u hu =>
    cases h
    obtain ⟨hc, rfl⟩ := storeBlock_ok hu
    exact .inr (.store rfl hc rfl (by simp) (by simp))

theorem execLoadRegs_raises_or_proceeds {x : Reg} {s t : State} (h : execLoadRegs x s = .next t) :
    RaisesOrProceeds (.loadRegs x) s t := by
  unfold execLoadRegs at h
  split at h
  · next f hf => cases h; exact .inl ⟨f, rfl, faultInfoRight_of_checkBlock (loadBlock_error hf)⟩
  · next bs _ =>
    cases h
    exact .inr (.advance (by rw [State.setRegsFrom_eq_v]; rfl) (by rw [State.setRegsFrom_eq_v]; rfl)
      (by rw [State.setRegsFrom_eq_v]; rfl))

theorem execDrw_raises_or_proceeds {x y : Reg} {n : Nat} {s t : State} (h : execDrw x y n s = .next t) :
    RaisesOrProceeds (.drw x y n) s t := by
  unfold execDrw at h
  split at h
  · next f hf => cases h; exact .inl ⟨f, rfl, faultInfoRight_of_checkBlock (loadBlock_error hf)⟩
  · next rows _ =>
    cases h
    refine .inr (.advance ?_ ?_ ?_) <;> rw [State.draw, State.writeCollision_eq_v] <;> rfl

theorem execLdVxKey_proceeds {x : Reg} {s t : State} (h : execLdVxKey x s = .next t) : Proceeds (.ldVxKey x) s t := by
  unfold execLdVxKey ldKeyWith at h
  split at h
  · cases h; exact ⟨rfl, .stay, .inl rfl⟩
  · cases h; exact .advance rfl rfl rfl

/-- What executing an instruction can do to pc, fault status and memory. -/
theorem exec_raises_or_proceeds {i : Instr} {s t : State} (h : exec i s = .next t) : RaisesOrProceeds i s t := by
  cases i with
  | ret => exact execRet_raises_or_proceeds h
  | call nnn => exact execCall_raises_or_proceeds h
  | skp x | sknp x => exact keyTest_raises_or_proceeds h
  | ldBcd x => exact execLdBcd_raises_or_proceeds h
  | storeRegs x => exact execStoreRegs_raises_or_proceeds h
  | loadRegs x => exact execLoadRegs_raises_or_proceeds h
  | drw x y n => exact execDrw_raises_or_proceeds h
  | ldVxKey x => exact .inr (execLdVxKey_proceeds h)
  | jp nnn => cases h; exact .inr ⟨rfl, .target nnn, .inl rfl⟩
  | jpV0 nnn => cases h; exact .inr ⟨rfl, .offset nnn _, .inl rfl⟩
  | seByte x nn | sneByte x nn | seReg x y | sneReg x y => cases h; exact .inr (Proceeds.skipIf s _)
  | addReg x y | sub x y | subn x y | shr x y | shl x y => cases h; exact .inr (.advance_of_v (s.writeFR_eq_v x _ _))
  | ldByte x nn | addByte x nn | ldReg x y | orReg x y | andReg x y | xorReg x y | rnd x nn | ldVxDt x | ldI nnn
  | addI x | ldFont x | ldDtVx x | ldStVx x | cls => cases h; exact .inr (.advance rfl rfl rfl)

/-! ## Who writes memory (R41) -/

/-- The two instructions that store, and how many bytes. -/
theorem store_of_storedBytes {i : Instr} {s : State} {bs : List Byte} (h : storedBytes i s = some bs) :
    (∃ x, i = .ldBcd x ∧ bs.length = 3) ∨ ∃ x : Reg, i = .storeRegs x ∧ bs.length = x.val + 1 := by
  cases i with
  | ldBcd x => cases h; exact .inl ⟨x, rfl, rfl⟩
  | storeRegs x => cases h; exact .inr ⟨x, rfl, s.regsUpTo_length x⟩
  | _ => cases h

theorem length_pos_of_storedBytes {i : Instr} {s : State} {bs : List Byte} (h : storedBytes i s = some bs) : 0 < bs.length := by
  rcases store_of_storedBytes h with ⟨_, _, hl⟩ | ⟨_, _, hl⟩ <;> omega

theorem params_of_exec {i : Instr} {s t : State} (h : exec i s = .next t) : t.params = s.params := by
  obtain ⟨-, -, hp⟩ := exec_keeps h
  exact hp

/-- The memory list after an instruction, faulting or not: as before, or with the block at I stored. -/
theorem mem_of_exec {i : Instr} {s t : State} (h : exec i s = .next t) : t.mem = s.mem ∨ StoresAtIndex i s t := by
  rcases exec_raises_or_proceeds h with ⟨f, rfl, -⟩ | ⟨-, -, hm⟩
  · exact .inl rfl
  · exact hm

/-- A byte that an instruction changes lies in the block it stores at I, and the store passed its check. -/
theorem changed_byte_in_store {i : Instr} {s t : State} {a : Nat} (h : exec i s = .next t) (hne : t.byteAt a ≠ s.byteAt a) :
    ∃ bs, storedBytes i s = some bs ∧ checkBlock s.params .write s.base bs.length = none ∧ inBlock s.base bs.length a := by
  have hp := params_of_exec h
  rcases mem_of_exec h with hm | ⟨bs, hbs, hc, hm⟩
  · exact absurd (State.byteAt_congr hm hp a) hne
  · refine ⟨bs, hbs, hc, ?_⟩
    by_contra hout
    have hsame : t.byteAt a = (s.setBytes s.base bs).byteAt a :=
      State.byteAt_congr hm (hp.trans (State.params_setBytes bs s s.base).symm) a
    exact hne (hsame.trans (State.byteAt_setBytes_other bs s hout))

/-- Settles O43: a changed byte lies in a stored block, and two instructions store. -/
theorem memoryChangesOnlyByStores : Obligations.MemoryChangesOnlyByStores := by
  intro i s t a h hne
  obtain ⟨bs, hbs, -, hin⟩ := changed_byte_in_store h hne
  rcases store_of_storedBytes hbs with ⟨x, rfl, hl⟩ | ⟨x, rfl, hl⟩
  · exact .inl ⟨x, rfl, hl ▸ hin⟩
  · exact .inr ⟨x, rfl, hl ▸ hin⟩

/-! ## The font region (R33, R37) -/

/-- Under the default policy no instruction changes a byte of the font: a block that passed its check begins past it. -/
theorem fontByte_of_exec {i : Instr} {s t : State} {a : Nat} (h : exec i s = .next t) (hp : s.params.fontWrite = .fault)
    (ha : a < fontSize) : t.byteAt a = s.byteAt a := by
  by_contra hne
  obtain ⟨bs, hbs, hc, hin⟩ := changed_byte_in_store h hne
  have hstart := (checkBlock_write_inv hc (length_pos_of_storedBytes hbs)).2 hp
  exact absurd ha (Nat.not_lt.mpr (hstart.trans hin.1))

theorem fontByte_of_step {s t : State} {a : Nat} (h : step s = .next t) (hp : s.params.fontWrite = .fault)
    (ha : a < fontSize) : t.byteAt a = s.byteAt a := by
  rcases step_cases h with ⟨-, rfl⟩ | ⟨-, f, -, rfl⟩ | ⟨-, -, -, rfl⟩ | ⟨-, -, i, -, hi⟩
  · rfl
  · rfl
  · rfl
  · exact fontByte_of_exec hi hp ha

/-- The step port is the step, where that answers a next state, and nothing otherwise. -/
theorem stepState_cases (s : State) : step s = .next (stepState s) ∨ stepState s = s := by
  unfold stepState
  split
  · next t h => exact .inl h
  · exact .inr rfl
  · exact .inr rfl

/-- The load port copies the image to 0x200, or changes nothing. -/
theorem hostState_load_cases (image : List Byte) (s : State) :
    hostState (.load image) s = s.setBytes progBase image ∨ hostState (.load image) s = s := by
  unfold hostState load
  by_cases hl : maxImage < image.length
  · exact .inr (by simp [hl])
  · exact .inl (by simp [hl])

/-- Settles O45: the step by its instruction's check, the load because it begins at 0x200; the other ports write no memory. -/
theorem onlyInitializeWritesFont : Obligations.OnlyInitializeWritesFont := by
  intro op s a hp hop ha
  cases op with
  | init => exact absurd rfl hop
  | load image =>
    rcases hostState_load_cases image s with h | h <;> rw [h]
    exact State.byteAt_setBytes_other image s (fun hin => by simp only [progBase] at hin; omega)
  | step =>
    show (stepState s).byteAt a = s.byteAt a
    rcases stepState_cases s with h | h
    · exact fontByte_of_step h hp ha
    · rw [h]
  | tick | setKeys k | clearRedraw => rfl

/-! ## Stored words are fetched (R47, R99) -/

/-- The bytes FX55 stores are the registers V0..Vx (R99). -/
theorem byteAt_of_exec_storeRegs {x k : Reg} {s t : State} (hm : MemoryCanonical s) (hw : Writable s.base (x.val + 1) s)
    (h : exec (.storeRegs x) s = .next t) (hk : k ≤ x) : t.byteAt (s.base + k.val) = s.reg k := by
  obtain ⟨hend, hfont⟩ := hw
  have hok : s.storeBlock s.base (s.regsUpTo x) = .ok (s.setBytes s.base (s.regsUpTo x)) := by
    rw [State.storeBlock, State.regsUpTo_length, checkBlock_write_none _ _ _ hend hfont]
  simp only [exec, execStoreRegs, hok] at h
  cases h
  have hlen : k.val < (s.regsUpTo x).length := by rw [State.regsUpTo_length]; exact Nat.lt_succ_of_le hk
  exact (State.byteAt_setBytes_in _ s hm s.base k.val hlen (by rwa [State.regsUpTo_length])).trans (s.regsUpTo_getElem x k hlen)

/-- Settles O27: both bytes of the word at pc are registers the store has written. -/
theorem storeIsSeenByFetch : Obligations.StoreIsSeenByFetch := by
  intro x k s t u hm hw h hk hu hpc hf
  have hk' : k.val + 1 < 16 := lt_of_le_of_lt hk x.isLt
  refine ⟨⟨k.val + 1, hk'⟩, rfl, ?_⟩
  have hhi : u.byteAt (s.base + k.val) = s.reg k :=
    (hu _).trans (byteAt_of_exec_storeRegs hm hw h ((Nat.le_succ _).trans hk))
  have hlo : u.byteAt (s.base + (k.val + 1)) = s.reg ⟨k.val + 1, hk'⟩ :=
    (hu _).trans (byteAt_of_exec_storeRegs (k := ⟨k.val + 1, hk'⟩) hm hw h hk)
  rw [fetch_of_fetchable hf, wordAtPc, hpc, Nat.add_assoc, hhi, hlo]

/-! ## The invariant of a step -/

/-- From a fetchable pc and a bounded stack, pc stays bounded: NNN + V0 is the largest of its values (R66). -/
theorem PcAfter.le {s : State} {w : Word} (h : PcAfter s w) (hpc : s.pc.toNat ≤ 0xFFE) (hs : StackBounded s) :
    w.toNat ≤ 0x10FE := by
  cases h with
  | stay => omega
  | next => rw [BitVec.toNat_add, BitVec.toNat_ofNat]; omega
  | skip => rw [BitVec.toNat_add, BitVec.toNat_ofNat]; omega
  | target nnn => have := nnn.isLt; rw [zextAddr, BitVec.toNat_setWidth]; omega
  | offset nnn b =>
    have := nnn.isLt
    have := b.isLt
    rw [BitVec.toNat_add, zextAddr, zextByte, BitVec.toNat_setWidth, BitVec.toNat_setWidth]
    omega
  | entry k => exact (hs k).trans (by decide)

/-- A stack entry after an instruction: as before, or the return address 2NNN pushes. -/
theorem stackEntry_of_exec {i : Instr} {s t : State} (h : exec i s = .next t) (k : Fin stackDepth) :
    t.stack[k] = s.stack[k] ∨ t.stack[k] = s.pc + 2#16 := by
  by_cases hk : t.stack[k] = s.stack[k]
  · exact .inl hk
  obtain ⟨-, -, hcall, -⟩ := otherStateHasItsWriters i s t h
  obtain ⟨nnn, rfl⟩ := hcall ⟨k, hk⟩
  cases hp : s.push (s.pc + 2#16) with
  | none => simp only [exec, execCall, hp, raise] at h; cases h; exact .inl rfl
  | some u =>
    obtain ⟨-, -, -, -, hentry, -⟩ := push_some hp
    simp only [exec, execCall, hp] at h
    cases h
    have hu := hentry k
    split at hu
    · exact .inr hu
    · exact .inl hu

theorem stackBounded_of_exec {i : Instr} {s t : State} (h : exec i s = .next t) (hpc : s.pc.toNat ≤ 0xFFE)
    (hs : StackBounded s) : StackBounded t := by
  intro k
  rcases stackEntry_of_exec h k with hk | hk <;> rw [hk]
  · exact hs k
  · rw [BitVec.toNat_add, BitVec.toNat_ofNat]; omega

theorem memoryCanonical_of_exec {i : Instr} {s t : State} (h : exec i s = .next t) (hs : MemoryCanonical s) :
    MemoryCanonical t := by
  unfold MemoryCanonical
  rw [params_of_exec h]
  rcases mem_of_exec h with hm | ⟨bs, -, -, hm⟩ <;> rw [hm]
  · exact hs
  · exact State.wf_setBytes bs hs s.base

theorem fontIntact_of_exec {i : Instr} {s t : State} (h : exec i s = .next t) (hp : s.params.fontWrite = .fault)
    (hs : FontIntact s) : FontIntact t := by
  intro k
  rw [fontByte_of_exec h hp k.isLt, params_of_exec h]
  exact hs k

/-- A raise keeps the invariant, when the fault carries its info. -/
theorem inv_setFault {s : State} {f : Fault} (hs : Inv s) (hf : FaultInfoRight (s.setFault f)) : Inv (s.setFault f) :=
  ⟨hs.pcBounded, hs.stackBounded, hs.memoryCanonical, hs.fontIntact, hf⟩

/-- A running core's instruction, at a pc it could be fetched from, keeps the invariant. -/
theorem inv_of_exec {i : Instr} {s t : State} (hs : Inv s) (hrun : s.fault = none) (hf : Fetchable s)
    (h : exec i s = .next t) : Inv t := by
  obtain ⟨hpc, -⟩ := hf
  rcases exec_raises_or_proceeds h with ⟨f, rfl, hinfo⟩ | ⟨hfault, hpc', -⟩
  · exact inv_setFault hs hinfo
  · exact {
      pcBounded := hpc'.le hpc hs.stackBounded
      stackBounded := stackBounded_of_exec h hpc hs.stackBounded
      memoryCanonical := memoryCanonical_of_exec h hs.memoryCanonical
      fontIntact := fun hp => by
        rw [params_of_exec h] at hp
        exact fontIntact_of_exec h hp (hs.fontIntact hp)
      faultInfo := faultInfoRight_of_running (hfault.trans hrun) }

/-- Skipping an UNKNOWN word keeps the invariant (R71). -/
theorem inv_advance {s : State} (hs : Inv s) (hrun : s.fault = none) (hf : Fetchable s) : Inv s.advance :=
  ⟨PcAfter.next.le hf.1 hs.stackBounded, hs.stackBounded, hs.memoryCanonical, hs.fontIntact, faultInfoRight_of_running hrun⟩

/-- Settles O46, along the cases of the step: stuck, a faulting fetch, an UNKNOWN word, a decoded instruction. -/
theorem stepKeepsInvariant : Obligations.StepKeepsInvariant := by
  intro s t hs h
  rcases step_cases h with ⟨-, rfl⟩ | ⟨-, f, hfe, rfl⟩ | ⟨hrun, hf, -, rfl⟩ | ⟨hrun, hf, i, -, hi⟩
  · exact hs
  · exact inv_setFault hs (faultInfoRight_of_fetch hfe)
  · exact inv_advance hs hrun hf
  · exact inv_of_exec hs hrun hf hi

/-! ## Decode after encode (R50, R52, R54) -/

/-- The decoder's row of an encoded word is the instruction: each format gives its fields back. -/
theorem decodeRow_encode {i : Instr} (h : i.WellFormed) : decodeRow (encode i) = some i := by
  cases i with
  | cls | ret => rfl
  | jp nnn | call nnn | ldI nnn | jpV0 nnn => simp [encode, decodeRow, fieldT_encodeA, fieldNNN_encodeA]
  | seByte x nn | sneByte x nn | ldByte x nn | addByte x nn | rnd x nn =>
    simp [encode, decodeRow, fieldT_encodeXNN, fieldX_encodeXNN, fieldNN_encodeXNN]
  | seReg x y | sneReg x y =>
    simp [encode, decodeRow, decodeSkipReg, fieldT_encodeXYN, fieldX_encodeXYN, fieldY_encodeXYN, fieldN_encodeXYN]
  | ldReg x y | orReg x y | andReg x y | xorReg x y | addReg x y | sub x y | shr x y | subn x y | shl x y =>
    simp [encode, decodeRow, decodeAlu, fieldT_encodeXYN, fieldX_encodeXYN, fieldY_encodeXYN, fieldN_encodeXYN]
  | drw x y n =>
    have hn : n < 16 := of_decide_eq_true (p := n < 16) h
    simp [encode, decodeRow, fieldT_encodeXYN, fieldX_encodeXYN, fieldY_encodeXYN, fieldN_encodeXYN, Nat.mod_eq_of_lt hn]
  | skp x | sknp x =>
    simp [encode, decodeRow, decodeKeyTest, fieldT_encodeXNN, fieldX_encodeXNN, fieldNN_encodeXNN]
  | ldVxDt x | ldVxKey x | ldDtVx x | ldStVx x | addI x | ldFont x | ldBcd x | storeRegs x | loadRegs x =>
    simp [encode, decodeRow, decodeMisc, fieldT_encodeXNN, fieldX_encodeXNN, fieldNN_encodeXNN]

theorem decode_encode {i : Instr} (h : i.WellFormed) : decode (encode i) = .ok i := by
  rw [decode, decodeRow_encode h]

/-- Settles O49: the word by its row, the bytes because they are the word's two halves. -/
theorem decodeOfEncode : Obligations.DecodeOfEncode := by
  intro i h
  refine ⟨decode_encode h, fun rest => ?_⟩
  show (decode (wordOfBytes (hiByte (encode i)) (loByte (encode i)))).map (fun i => (i, rest)) = .ok (i, rest)
  rw [wordOfBytes_hi_lo, decode_encode h]
  rfl

end Sys2Proof.Machine
end

section
/-! PROOFS. Statements of the encoding family: the encoder undoes the decoder, the decoder is the table of R54, and the
words that are UNKNOWN. A word is its fields put together again in one of the formats of R52, so what the decoder reads
from it encodes to it; a row of R54 that selects a word fixes the fields that tell its instruction. -/

namespace Sys2Proof.Machine

/-! ## The decoder's two answers (R55, R62) -/

theorem decode_ok_iff {w : Word} {i : Instr} : decode w = .ok i ↔ decodeRow w = some i := by
  unfold decode
  cases decodeRow w <;> simp

theorem decode_unknown_iff {w : Word} : decode w = .error (.unknownOpcode w) ↔ decodeRow w = none := by
  unfold decode
  cases decodeRow w <;> simp

/-! ## A word is its fields put together again (R51, R52) -/

theorem encodeA_fields {w : Word} {t : BitVec 4} (ht : fieldT w = t.toNat) : encodeA t (fieldNNN w) = w := by
  apply BitVec.eq_of_toNat_eq
  rw [encodeA_toNat, ← ht, fieldT_eq, fieldNNN_toNat]; omega

theorem encodeXNN_fields {w : Word} {t : BitVec 4} {nn : Byte} (ht : fieldT w = t.toNat)
    (hnn : (fieldNN w).toNat = nn.toNat) : encodeXNN t (fieldX w) nn = w := by
  apply BitVec.eq_of_toNat_eq
  rw [encodeXNN_toNat, ← ht, ← hnn, fieldT_eq, fieldX_val, fieldNN_toNat]; omega

theorem encodeXYN_fields {w : Word} {t n : BitVec 4} (ht : fieldT w = t.toNat) (hn : fieldN w = n.toNat) :
    encodeXYN t (fieldX w) (fieldY w) n = w := by
  apply BitVec.eq_of_toNat_eq
  rw [encodeXYN_toNat, ← ht, ← hn, fieldT_eq, fieldX_val, fieldY_val, fieldN_eq]; omega

theorem fieldN_lt (w : Word) : fieldN w < 16 := by rw [fieldN_eq]; omega

/-- The row count of DXYN is the whole field N, so it fits (R53) and is encoded as it was read. -/
theorem encode_drw_fields {w : Word} (ht : fieldT w = 0xD) :
    (Instr.drw (fieldX w) (fieldY w) (fieldN w)).WellFormed ∧ encode (.drw (fieldX w) (fieldY w) (fieldN w)) = w :=
  ⟨decide_eq_true (fieldN_lt w),
    encodeXYN_fields (t := 0xD#4) ht (BitVec.toNat_ofNat _ _ ▸ (Nat.mod_eq_of_lt (fieldN_lt w)).symm)⟩

/-! ## Encode after decode, family by family (R54, R55) -/

theorem encode_of_decodeZero {w : Word} {i : Instr} (h : decodeZero w = some i) : i.WellFormed ∧ encode i = w := by
  unfold decodeZero at h
  split at h
  · next hw => cases h; exact ⟨rfl, hw.symm⟩
  · split at h
    · next hw => cases h; exact ⟨rfl, hw.symm⟩
    · cases h

theorem decodeSkipReg_some {mk : Reg → Reg → Instr} {w : Word} {i : Instr} (h : decodeSkipReg mk w = some i) :
    fieldN w = 0 ∧ i = mk (fieldX w) (fieldY w) := by
  unfold decodeSkipReg at h
  split at h
  · next hn => exact ⟨hn, (Option.some.inj h).symm⟩
  · cases h

theorem encode_of_decodeAlu {w : Word} {i : Instr} (ht : fieldT w = 0x8) (h : decodeAlu w = some i) :
    i.WellFormed ∧ encode i = w := by
  unfold decodeAlu at h
  split at h
  case h_10 => cases h
  all_goals
    next hn =>
      cases h
      exact ⟨rfl, encodeXYN_fields ht hn⟩

theorem encode_of_decodeKeyTest {w : Word} {i : Instr} (ht : fieldT w = 0xE) (h : decodeKeyTest w = some i) :
    i.WellFormed ∧ encode i = w := by
  unfold decodeKeyTest at h
  split at h
  case h_3 => cases h
  all_goals
    next hnn =>
      cases h
      exact ⟨rfl, encodeXNN_fields ht hnn⟩

theorem encode_of_decodeMisc {w : Word} {i : Instr} (ht : fieldT w = 0xF) (h : decodeMisc w = some i) :
    i.WellFormed ∧ encode i = w := by
  unfold decodeMisc at h
  split at h
  case h_10 => cases h
  all_goals
    next hnn =>
      cases h
      exact ⟨rfl, encodeXNN_fields ht hnn⟩

/-- What the decoder reads from a word fits its fields and encodes to the word; case `h_n` is family `n - 1`. -/
theorem encode_of_decodeRow {w : Word} {i : Instr} (h : decodeRow w = some i) : i.WellFormed ∧ encode i = w := by
  unfold decodeRow at h
  split at h
  case h_1 => exact encode_of_decodeZero h
  case h_2 ht | h_3 ht | h_11 ht | h_12 ht => cases h; exact ⟨rfl, encodeA_fields ht⟩
  case h_4 ht | h_5 ht | h_7 ht | h_8 ht | h_13 ht => cases h; exact ⟨rfl, encodeXNN_fields ht rfl⟩
  case h_6 ht | h_10 ht =>
    obtain ⟨hn, rfl⟩ := decodeSkipReg_some h
    exact ⟨rfl, encodeXYN_fields ht hn⟩
  case h_9 ht => exact encode_of_decodeAlu ht h
  case h_14 ht => cases h; exact encode_drw_fields ht
  case h_15 ht => exact encode_of_decodeKeyTest ht h
  case h_16 ht => exact encode_of_decodeMisc ht h
  case h_17 => cases h

/-- Settles O50: in every family the instruction holds all the fields that the family does not fix. -/
theorem encodeOfDecode : Obligations.EncodeOfDecode := fun _ _ h => encode_of_decodeRow (decode_ok_iff.mp h)

/-! ## The table of R54 -/

/-- The word selects the row of number `k`. -/
def SelectsRow (k : Nat) (w : Word) : Prop := ∃ row, opcodeRows[k]? = some row ∧ row.selects w = true

/-- An encoded word selects the row of its instruction. -/
theorem selectsRow_encode (i : Instr) : i.WellFormed → SelectsRow (rowNumber i) (encode i) :=
  open Laws.EncodeMatchesRow in
  match i with
  | .cls => cls | .ret => ret | .jp nnn => jp nnn | .call nnn => call nnn
  | .seByte x nn => seByte x nn | .sneByte x nn => sneByte x nn | .seReg x y => seReg x y
  | .ldByte x nn => ldByte x nn | .addByte x nn => addByte x nn | .ldReg x y => ldReg x y | .orReg x y => orReg x y
  | .andReg x y => andReg x y | .xorReg x y => xorReg x y | .addReg x y => addReg x y | .sub x y => sub x y
  | .shr x y => shr x y | .subn x y => subn x y | .shl x y => shl x y | .sneReg x y => sneReg x y
  | .ldI nnn => ldI nnn | .jpV0 nnn => jpV0 nnn | .rnd x nn => rnd x nn | .drw x y n => drw x y n
  | .skp x => skp x | .sknp x => sknp x | .ldVxDt x => ldVxDt x | .ldVxKey x => ldVxKey x | .ldDtVx x => ldDtVx x
  | .ldStVx x => ldStVx x | .addI x => addI x | .ldFont x => ldFont x | .ldBcd x => ldBcd x
  | .storeRegs x => storeRegs x | .loadRegs x => loadRegs x

theorem selectsRow_of_decodeRow {w : Word} {i : Instr} (h : decodeRow w = some i) : SelectsRow (rowNumber i) w := by
  obtain ⟨hwf, rfl⟩ := encode_of_decodeRow h
  exact selectsRow_encode i hwf

/-! ## The fields a selected row fixes -/

/-- A mask that keeps the family leaves T as it is. -/
theorem fieldT_of_mask {w m b : Word} (h : w &&& m = b) (hm : m.extractLsb' 12 4 = BitVec.allOnes 4) :
    fieldT w = fieldT b := by
  rw [← h, fieldT, fieldT, BitVec.extractLsb'_and, hm, BitVec.and_allOnes]

theorem fieldN_of_mask {w m b : Word} (h : w &&& m = b) (hm : m.extractLsb' 0 4 = BitVec.allOnes 4) :
    fieldN w = fieldN b := by
  rw [← h, fieldN, fieldN, BitVec.extractLsb'_and, hm, BitVec.and_allOnes]

theorem fieldNN_of_mask {w m b : Word} (h : w &&& m = b) (hm : m.extractLsb' 0 8 = BitVec.allOnes 8) :
    fieldNN w = fieldNN b := by
  rw [← h, fieldNN, fieldNN, BitVec.extractLsb'_and, hm, BitVec.and_allOnes]

/-- A row with the whole word fixed. -/
theorem word_of_row {w b : Word} (h : w &&& 0xFFFF#16 = b) : b = w := by
  rw [← h]; exact BitVec.and_allOnes

/-- A row of format A. -/
theorem encodeA_of_row {w : Word} (t : BitVec 4) (h : w &&& 0xF000#16 = encodeA t 0) : encodeA t (fieldNNN w) = w :=
  encodeA_fields (by rw [fieldT_of_mask h rfl, fieldT_encodeA])

/-- A row of format XNN. -/
theorem encodeXNN_of_row {w : Word} (t : BitVec 4) (h : w &&& 0xF000#16 = encodeA t 0) :
    encodeXNN t (fieldX w) (fieldNN w) = w :=
  encodeXNN_fields (by rw [fieldT_of_mask h rfl, fieldT_encodeA]) rfl

/-- A row of format XS: the low byte selects. -/
theorem encodeXS_of_row {w : Word} (t : BitVec 4) (s : Byte) (h : w &&& 0xF0FF#16 = encodeXNN t 0 s) :
    encodeXNN t (fieldX w) s = w :=
  encodeXNN_fields (by rw [fieldT_of_mask h rfl, fieldT_encodeXNN]) (by rw [fieldNN_of_mask h rfl, fieldNN_encodeXNN])

/-- A row of format XY: the low nibble selects. -/
theorem encodeXY_of_row {w : Word} (t n : BitVec 4) (h : w &&& 0xF00F#16 = encodeXYN t 0 0 n) :
    encodeXYN t (fieldX w) (fieldY w) n = w :=
  encodeXYN_fields (by rw [fieldT_of_mask h rfl, fieldT_encodeXYN]) (by rw [fieldN_of_mask h rfl, fieldN_encodeXYN])

/-- The masked word of a selected row. -/
theorem SelectsRow.masked {k : Nat} {w : Word} {row : OpcodeRow} (h : SelectsRow k w)
    (hrow : opcodeRows[k]? = some row) : w &&& row.mask = row.matchBits := by
  obtain ⟨_, hk, hs⟩ := h
  cases hk.symm.trans hrow
  exact eq_of_beq hs

/-- A word that selects row `k` is the encoding of an instruction of row `k`, its operands the word's fields. -/
theorem exists_encode_of_selectsRow {w : Word} (k : Nat) (h : SelectsRow k w) :
    ∃ i, rowNumber i = k ∧ i.WellFormed ∧ encode i = w :=
  match k, h with
  | 0, h => ⟨.cls, rfl, rfl, word_of_row (h.masked rfl)⟩
  | 1, h => ⟨.ret, rfl, rfl, word_of_row (h.masked rfl)⟩
  | 2, h => ⟨.jp _, rfl, rfl, encodeA_of_row _ (h.masked rfl)⟩
  | 3, h => ⟨.call _, rfl, rfl, encodeA_of_row _ (h.masked rfl)⟩
  | 4, h => ⟨.seByte _ _, rfl, rfl, encodeXNN_of_row _ (h.masked rfl)⟩
  | 5, h => ⟨.sneByte _ _, rfl, rfl, encodeXNN_of_row _ (h.masked rfl)⟩
  | 6, h => ⟨.seReg _ _, rfl, rfl, encodeXY_of_row _ _ (h.masked rfl)⟩
  | 7, h => ⟨.ldByte _ _, rfl, rfl, encodeXNN_of_row _ (h.masked rfl)⟩
  | 8, h => ⟨.addByte _ _, rfl, rfl, encodeXNN_of_row _ (h.masked rfl)⟩
  | 9, h => ⟨.ldReg _ _, rfl, rfl, encodeXY_of_row _ _ (h.masked rfl)⟩
  | 10, h => ⟨.orReg _ _, rfl, rfl, encodeXY_of_row _ _ (h.masked rfl)⟩
  | 11, h => ⟨.andReg _ _, rfl, rfl, encodeXY_of_row _ _ (h.masked rfl)⟩
  | 12, h => ⟨.xorReg _ _, rfl, rfl, encodeXY_of_row _ _ (h.masked rfl)⟩
  | 13, h => ⟨.addReg _ _, rfl, rfl, encodeXY_of_row _ _ (h.masked rfl)⟩
  | 14, h => ⟨.sub _ _, rfl, rfl, encodeXY_of_row _ _ (h.masked rfl)⟩
  | 15, h => ⟨.shr _ _, rfl, rfl, encodeXY_of_row _ _ (h.masked rfl)⟩
  | 16, h => ⟨.subn _ _, rfl, rfl, encodeXY_of_row _ _ (h.masked rfl)⟩
  | 17, h => ⟨.shl _ _, rfl, rfl, encodeXY_of_row _ _ (h.masked rfl)⟩
  | 18, h => ⟨.sneReg _ _, rfl, rfl, encodeXY_of_row _ _ (h.masked rfl)⟩
  | 19, h => ⟨.ldI _, rfl, rfl, encodeA_of_row _ (h.masked rfl)⟩
  | 20, h => ⟨.jpV0 _, rfl, rfl, encodeA_of_row _ (h.masked rfl)⟩
  | 21, h => ⟨.rnd _ _, rfl, rfl, encodeXNN_of_row _ (h.masked rfl)⟩
  | 22, h => ⟨.drw _ _ _, rfl, encode_drw_fields (fieldT_of_mask (h.masked rfl) rfl)⟩
  | 23, h => ⟨.skp _, rfl, rfl, encodeXS_of_row _ _ (h.masked rfl)⟩
  | 24, h => ⟨.sknp _, rfl, rfl, encodeXS_of_row _ _ (h.masked rfl)⟩
  | 25, h => ⟨.ldVxDt _, rfl, rfl, encodeXS_of_row _ _ (h.masked rfl)⟩
  | 26, h => ⟨.ldVxKey _, rfl, rfl, encodeXS_of_row _ _ (h.masked rfl)⟩
  | 27, h => ⟨.ldDtVx _, rfl, rfl, encodeXS_of_row _ _ (h.masked rfl)⟩
  | 28, h => ⟨.ldStVx _, rfl, rfl, encodeXS_of_row _ _ (h.masked rfl)⟩
  | 29, h => ⟨.addI _, rfl, rfl, encodeXS_of_row _ _ (h.masked rfl)⟩
  | 30, h => ⟨.ldFont _, rfl, rfl, encodeXS_of_row _ _ (h.masked rfl)⟩
  | 31, h => ⟨.ldBcd _, rfl, rfl, encodeXS_of_row _ _ (h.masked rfl)⟩
  | 32, h => ⟨.storeRegs _, rfl, rfl, encodeXS_of_row _ _ (h.masked rfl)⟩
  | 33, h => ⟨.loadRegs _, rfl, rfl, encodeXS_of_row _ _ (h.masked rfl)⟩
  | _ + 34, ⟨_, hrow, _⟩ => nomatch hrow

/-- The word selects row `k` exactly when the decoder reads an instruction of row `k` from it. -/
theorem selectsRow_iff {k : Nat} {w : Word} : SelectsRow k w ↔ ∃ i, decodeRow w = some i ∧ rowNumber i = k := by
  constructor
  · intro h
    obtain ⟨i, hk, hwf, rfl⟩ := exists_encode_of_selectsRow k h
    exact ⟨i, decodeRow_encode hwf, hk⟩
  · rintro ⟨i, h, rfl⟩
    exact selectsRow_of_decodeRow h

/-- No two rows match the same word: both are the row of the one instruction the decoder reads. -/
theorem SelectsRow.unique {j k : Nat} {w : Word} (hj : SelectsRow j w) (hk : SelectsRow k w) : j = k := by
  obtain ⟨i, hi, rfl⟩ := selectsRow_iff.mp hj
  obtain ⟨i', hi', rfl⟩ := selectsRow_iff.mp hk
  cases hi.symm.trans hi'
  rfl

theorem selectsRow_of_getElem {k : Nat} {w : Word} (hk : k < opcodeRows.length)
    (h : opcodeRows[k].selects w = true) : SelectsRow k w := ⟨_, List.getElem?_eq_getElem hk, h⟩

/-- The first row is the selected one, since no other is selected. -/
theorem SelectsRow.firstRow_eq {k : Nat} {w : Word} (h : SelectsRow k w) : firstRow w = some k := by
  have ⟨row, hrow, hs⟩ := h
  obtain ⟨hk, rfl⟩ := List.getElem?_eq_some_iff.mp hrow
  refine List.findIdx?_eq_some_iff_getElem.mpr ⟨hk, hs, fun j hjk hj => ?_⟩
  have := (selectsRow_of_getElem (hjk.trans hk) hj).unique h
  omega

theorem firstRow_eq_none {w : Word} (h : decodeRow w = none) : firstRow w = none := by
  refine List.findIdx?_eq_none_iff.mpr fun row hrow => Bool.eq_false_iff.mpr fun hs => ?_
  obtain ⟨k, hk, rfl⟩ := List.getElem_of_mem hrow
  obtain ⟨i, hi, -⟩ := selectsRow_iff.mp (selectsRow_of_getElem hk hs)
  cases h.symm.trans hi

/-- The decoder is the search of the table (R55). -/
theorem firstRow_eq (w : Word) : firstRow w = (decodeRow w).map rowNumber := by
  cases h : decodeRow w with
  | none => exact firstRow_eq_none h
  | some i => exact (selectsRow_of_decodeRow h).firstRow_eq

/-- Settles O51: `firstRow_eq` for the two answers of the decoder, `SelectsRow.unique` for the rows. -/
theorem decoderIsFirstTableMatch : Obligations.DecoderIsFirstTableMatch := by
  refine ⟨fun w i h => ?ok, fun w => ?unknown, fun j k w rj rk hj hk hsj hsk => ?rows⟩
  case ok => rw [firstRow_eq, decode_ok_iff.mp h]; rfl
  case unknown => rw [decode_unknown_iff, firstRow_eq, Option.map_eq_none_iff]
  case rows => exact Fin.ext (SelectsRow.unique ⟨rj, hj, hsj⟩ ⟨rk, hk, hsk⟩)

/-! ## The words that are UNKNOWN, family by family (R56) -/

theorem decodeZero_eq_none_iff {w : Word} : decodeZero w = none ↔ w ≠ 0x00E0#16 ∧ w ≠ 0x00EE#16 := by
  unfold decodeZero
  split
  · next hw => simp [hw]
  · split
    · next hw => simp [hw]
    · next hcls hret => simp [hcls, hret]

theorem decodeSkipReg_eq_none_iff {mk : Reg → Reg → Instr} {w : Word} :
    decodeSkipReg mk w = none ↔ fieldN w ≠ 0 := by
  simp [decodeSkipReg]

theorem decodeAlu_eq_none_iff {w : Word} :
    decodeAlu w = none ↔ fieldN w ∈ [0x8, 0x9, 0xA, 0xB, 0xC, 0xD, 0xF] := by
  have := fieldN_lt w
  unfold decodeAlu
  split
  case h_10 =>
    simp only [List.mem_cons, List.not_mem_nil, or_false, true_iff, imp_false] at *
    omega
  all_goals next hn => simp [hn]

theorem decodeKeyTest_eq_none_iff {w : Word} : decodeKeyTest w = none ↔ (fieldNN w).toNat ∉ [0x9E, 0xA1] := by
  unfold decodeKeyTest
  split
  case h_3 => grind
  all_goals next hnn => simp [hnn]

theorem decodeMisc_eq_none_iff {w : Word} :
    decodeMisc w = none ↔ (fieldNN w).toNat ∉ [0x07, 0x0A, 0x15, 0x18, 0x1E, 0x29, 0x33, 0x55, 0x65] := by
  unfold decodeMisc
  split
  case h_10 =>
    simp only [List.mem_cons, List.not_mem_nil, or_false, true_iff, imp_false] at *
    omega
  all_goals next hnn => simp [hnn]

/-- The families in which a word can be UNKNOWN; case `h_n` is family `n - 1`. -/
theorem decodeRow_eq_none_iff {w : Word} : decodeRow w = none ↔
    (fieldT w = 0 ∧ decodeZero w = none) ∨ ((fieldT w = 5 ∨ fieldT w = 9) ∧ fieldN w ≠ 0) ∨
    (fieldT w = 8 ∧ decodeAlu w = none) ∨ (fieldT w = 0xE ∧ decodeKeyTest w = none) ∨
    (fieldT w = 0xF ∧ decodeMisc w = none) := by
  unfold decodeRow
  split
  case h_17 =>
    have : fieldT w < 16 := by rw [fieldT_eq]; omega
    grind
  all_goals next ht => simp [ht, decodeSkipReg_eq_none_iff]

/-- Settles O52: each family's decoder, with the fields as numbers. -/
theorem unknownWordsByFamily : Obligations.UnknownWordsByFamily := by
  intro w
  have hzero : (fieldT w = 0 ∧ decodeZero w = none) ↔ (w.toNat < 0x1000 ∧ w.toNat ≠ 0x00E0 ∧ w.toNat ≠ 0x00EE) := by
    rw [decodeZero_eq_none_iff, fieldT_eq]
    simp only [ne_eq, ← BitVec.toNat_inj, BitVec.toNat_ofNat]
    omega
  rw [decode_unknown_iff, decodeRow_eq_none_iff, hzero, decodeAlu_eq_none_iff, decodeKeyTest_eq_none_iff,
    decodeMisc_eq_none_iff, fieldT_eq, fieldN_eq, fieldNN_toNat]

/-! ## Words written out (R51, R54) -/

/-- Settles O53: the decoder run on the nine words. -/
theorem sampleWordsDecode : Obligations.SampleWordsDecode := by
  unfold Obligations.SampleWordsDecode
  decide

end Sys2Proof.Machine
end

section
/-! PROOFS. Statements of the fetch family: what the step does with the word at pc and what it returns (R60-R64, R71), the
next pc of every instruction (R65), and CXNN. An instruction that can fault is inverted once, into the fault or the one
state it otherwise answers; `of_running` then drops the fault. -/

namespace Sys2Proof.Machine

/-! ## The step and its return value, case by case (R60-R64) -/

/-- The decoder's only error is the UNKNOWN word itself (R55). -/
theorem decode_error {w : Word} {e : DecodeError} (h : decode w = .error e) : e = .unknownOpcode w := by
  unfold decode at h
  split at h <;> cases h
  rfl

/-- A fetch that does not fail reads the word at a fetchable pc (R61). -/
theorem fetch_error_or_fetchable (s : State) : (∃ f, fetch s = .error f) ∨ Fetchable s := by
  cases h : fetch s with
  | error f => exact .inl ⟨f, rfl⟩
  | ok w => exact .inr (fetch_ok h).1

/-- Settles O35: the first branch of the step and of its return value. -/
theorem faultedCoreIsStuck : Obligations.FaultedCoreIsStuck := by
  intro s f hf
  exact ⟨by simp only [step, hf], by simp only [stepReturn, hf]⟩

theorem stepReturn_of_fetch_error {s : State} {f : Fault} (hs : s.fault = none) (h : fetch s = .error f) :
    stepReturn s = some (.faulted f) := by
  simp only [stepReturn, hs, h]

/-- Settles O34: the fetch reads the word at pc (`fetch_of_fetchable`), and the skip is `State.advance`. -/
theorem stepSkipsUnknownWord : Obligations.StepSkipsUnknownWord := by
  intro s e hs hf he
  have hw : fetch s = .ok (wordAtPc s) := fetch_of_fetchable hf
  exact ⟨s.advance, by simp only [step, hs, hw, he, skipUnknown], rfl, keeps_advance s, by simp only [stepReturn, hs, hw, he]⟩

/-- Settles O33: the fetch reads the word at pc (`fetch_of_fetchable`). -/
theorem stepRunsDecodedInstruction : Obligations.StepRunsDecodedInstruction := by
  intro s i hs hf hi
  simp only [step, hs, fetch_of_fetchable hf, hi]

theorem stepReturn_of_decoded {i : Instr} {s t : State} (hs : s.fault = none) (hf : Fetchable s)
    (hi : decode (wordAtPc s) = .ok i) (h : exec i s = .next t) : stepReturn s = some (returnAfter i s t) := by
  simp only [stepReturn, hs, fetch_of_fetchable hf, hi, h]

/-- Every instruction answers a next state (log 7). -/
theorem exec_answers (i : Instr) (s : State) : ∃ t, exec i s = .next t := by
  rcases exec_cases i s with ⟨f, h⟩ | ⟨t, h, -⟩ <;> exact ⟨_, h⟩

/-! ## The key wait (R110) -/

/-- There is no key above 15 (R28). -/
theorem State.keyDown_of_ge (s : State) {k : Nat} (h : 16 ≤ k) : s.keyDown k = false := BitVec.getLsbD_of_ge _ _ h

theorem State.pressedKeys_eq_nil_iff (s : State) : s.pressedKeys = [] ↔ ∀ k, s.keyDown k = false := by
  simp only [State.pressedKeys, List.filter_eq_nil_iff, List.mem_range, Bool.not_eq_true]
  refine ⟨fun h k => ?_, fun h k _ => h k⟩
  rcases Nat.lt_or_ge k 16 with hk | hk
  · exact h k hk
  · exact s.keyDown_of_ge hk

/-- FX0A leaves the state as it is while no key is pressed; else it ends with `State.advance`. -/
theorem execLdVxKey_cases {x : Reg} {s t : State} (h : execLdVxKey x s = .next t) :
    (s.pressedKeys = [] ∧ t = s) ∨ (s.pressedKeys ≠ [] ∧ ∃ b, t = (s.countDraw.setReg x b).advance) := by
  unfold execLdVxKey ldKeyWith at h
  split at h
  · next hp => cases h; exact .inl ⟨hp, rfl⟩
  · next hp => cases h; exact .inr ⟨by simp [hp], _, rfl⟩

/-- An instruction that waits is FX0A with no key pressed, and it changes nothing. -/
theorem exec_of_waits {i : Instr} {s t : State} (hw : waits i s = true) (h : exec i s = .next t) :
    t = s ∧ (∀ k, s.keyDown k = false) ∧ ∃ x, i = .ldVxKey x := by
  unfold waits at hw
  split at hw
  · next x =>
    have hp : s.pressedKeys = [] := List.isEmpty_iff.mp hw
    rcases execLdVxKey_cases h with ⟨-, rfl⟩ | ⟨hne, -⟩
    · exact ⟨rfl, (State.pressedKeys_eq_nil_iff t).mp hp, x, rfl⟩
    · exact absurd hp hne
  · cases hw

/-! ## The four outcomes (R64) -/

/-- What an instruction's return value is: never a report. -/
theorem returnAfter_cases (i : Instr) (s t : State) :
    (∃ f, t.fault = some f ∧ returnAfter i s t = .faulted f) ∨
    (t.fault = none ∧ waits i s = true ∧ returnAfter i s t = .waiting) ∨
    (t.fault = none ∧ returnAfter i s t = .executed) := by
  unfold returnAfter
  cases t.fault with
  | some f => exact .inl ⟨f, rfl, rfl⟩
  | none => cases waits i s <;> simp

/-- Settles O37, along the cases of the step: stuck, a faulting fetch, an UNKNOWN word, and a decoded instruction with
the three values it can return. -/
theorem stepReturnsOneOfFourOutcomes : Obligations.StepReturnsOneOfFourOutcomes := by
  intro s
  cases hs : s.fault with
  | some f =>
    obtain ⟨hstep, hret⟩ := faultedCoreIsStuck s f hs
    exact ⟨s, _, hstep, hret, by simp [hs]⟩
  | none =>
    rcases fetch_error_or_fetchable s with ⟨f, hfe⟩ | hf
    · exact ⟨_, _, step_of_fetch_error hs hfe, stepReturn_of_fetch_error hs hfe, by simp⟩
    cases hd : decode (wordAtPc s) with
    | error e =>
      obtain ⟨t, hstep, hpc, ⟨-, hkept, -⟩, hret⟩ := stepSkipsUnknownWord s e hs hf hd
      have ht : t.fault = none := (hkept .fault List.not_mem_nil).trans hs
      obtain rfl := decode_error hd
      refine ⟨t, _, hstep, hret, by simp [ht], by simp, ?_, by simp⟩
      rintro w a ⟨⟩
      exact ⟨rfl, rfl, hd, hpc⟩
    | ok i =>
      obtain ⟨t, h⟩ := exec_answers i s
      refine ⟨t, _, (stepRunsDecodedInstruction s i hs hf hd).trans h, stepReturn_of_decoded hs hf hd h, ?_⟩
      rcases returnAfter_cases i s t with ⟨f, ht, hr⟩ | ⟨ht, hw, hr⟩ | ⟨ht, hr⟩ <;> rw [hr]
      · simp [ht]
      · obtain ⟨hts, hkeys, x, rfl⟩ := exec_of_waits hw h
        exact ⟨by simp [ht], fun _ => ⟨hts, hkeys, x, rfl⟩, by simp, by simp⟩
      · exact ⟨by simp [ht], by simp, by simp, fun _ => ⟨i, rfl, h, ht⟩⟩

/-! ## The next pc (R65) -/

theorem zextAddr_toNat (nnn : Addr) : (zextAddr nnn).toNat = nnn.toNat :=
  BitVec.toNat_setWidth_of_le (by decide)

/-- NNN plus a register does not wrap: it is at most 0x10FE (R75). -/
theorem zextAddr_add_zextByte_toNat (nnn : Addr) (b : Byte) : (zextAddr nnn + zextByte b).toNat = nnn.toNat + b.toNat := by
  have hb : (zextByte b).toNat = b.toNat := BitVec.toNat_setWidth_of_le (by decide)
  have := nnn.isLt
  have := b.isLt
  rw [BitVec.toNat_add, zextAddr_toNat, hb]
  omega

/-- `State.skipIf` is the skip of R65, for the condition its Boolean decides. -/
theorem skipsWhen_skipIf (s : State) {p : Prop} {c : Bool} (hc : c = true ↔ p) : SkipsWhen p s (s.skipIf c) := by
  cases c
  · exact ⟨fun hp => absurd (hc.mpr hp) Bool.false_ne_true, fun _ => rfl⟩
  · exact ⟨fun _ => rfl, fun hp => absurd (hc.mp rfl) hp⟩

/-- A state that has not faulted was not answered by a raise. -/
theorem of_running {P : Prop} {s t : State} (h : (∃ f, t = s.setFault f) ∨ P) (ht : t.fault = none) : P := by
  refine h.resolve_left ?_
  rintro ⟨f, rfl⟩
  cases ht

/-- 00EE faults, or goes to the popped entry (R72). -/
theorem execRet_cases {s t : State} (h : execRet s = .next t) :
    (∃ f, t = s.setFault f) ∨ ∃ w u, s.pop = some (w, u) ∧ t = u.setPc w := by
  unfold execRet at h
  split at h
  · cases h; exact .inl ⟨_, rfl⟩
  · next w u hp => cases h; exact .inr ⟨w, u, hp, rfl⟩

/-- 2NNN faults, or goes to NNN after the push (R74). -/
theorem execCall_cases {nnn : Addr} {s t : State} (h : execCall nnn s = .next t) :
    (∃ f, t = s.setFault f) ∨ ∃ u, s.push (s.pc + 2#16) = some u ∧ t = u.setPc (zextAddr nnn) := by
  unfold execCall at h
  split at h
  · cases h; exact .inl ⟨_, rfl⟩
  · next u hp => cases h; exact .inr ⟨u, hp, rfl⟩

/-- A key test faults, or skips when the key's state is the wanted one (R107). -/
theorem keyTest_cases {want : Bool} {x : Reg} {s t : State} (h : keyTest want x s = .next t) :
    (∃ f, t = s.setFault f) ∨ t = s.skipIf (s.keyDown (s.reg x).toNat == want) := by
  unfold keyTest at h
  split at h <;> cases h
  · exact .inl ⟨_, rfl⟩
  · exact .inr rfl

/-- FX33 faults, or stores the digits (R98). -/
theorem execLdBcd_cases {x : Reg} {s t : State} (h : execLdBcd x s = .next t) :
    (∃ f, t = s.setFault f) ∨ t = (s.setBytes s.base (decimalDigits (s.reg x))).advance := by
  unfold execLdBcd at h
  split at h
  · next f _ => cases h; exact .inl ⟨f, rfl⟩
  · next u hu => cases h; rw [(storeBlock_ok hu).2]; exact .inr rfl

/-- FX55 faults, or stores the registers and moves I on (R99). -/
theorem execStoreRegs_cases {x : Reg} {s t : State} (h : execStoreRegs x s = .next t) :
    (∃ f, t = s.setFault f) ∨
      t = ((s.setBytes s.base (s.regsUpTo x)).setIndex (indexPlus s.i (blockCount x))).advance := by
  unfold execStoreRegs at h
  split at h
  · next f _ => cases h; exact .inl ⟨f, rfl⟩
  · next u hu => cases h; rw [(storeBlock_ok hu).2]; exact .inr rfl

/-- FX65 faults, or loads the registers and moves I on (R100). -/
theorem execLoadRegs_cases {x : Reg} {s t : State} (h : execLoadRegs x s = .next t) :
    (∃ f, t = s.setFault f) ∨
      t = ((s.setRegsFrom 0 (s.bytesAt s.base (blockCount x))).setIndex (indexPlus s.i (blockCount x))).advance := by
  unfold execLoadRegs at h
  split at h
  · next f _ => cases h; exact .inl ⟨f, rfl⟩
  · next bs hbs => cases h; rw [((loadBlock_ok_iff _ _ _ _).mp hbs).2]; exact .inr rfl

@[simp] theorem State.pc_setRegsFrom (bs : List Byte) (s : State) (k : Nat) : (s.setRegsFrom k bs).pc = s.pc := by
  rw [State.setRegsFrom_eq_v]

@[simp] theorem State.pc_writeFR (s : State) (x : Reg) (flag b : Byte) : (s.writeFR x flag b).pc = s.pc := by
  rw [State.writeFR_eq_v]

@[simp] theorem State.pc_draw (s : State) (x y : Reg) (rows : List Byte) : (s.draw x y rows).pc = s.pc := by
  rw [State.draw, State.writeCollision_eq_v, State.pc_setDisplay]

/-- FX0A stays at its pc while no key is pressed, and goes on when one is (R65, R110). -/
theorem nextPc_ldVxKey {x : Reg} {s t : State} (h : execLdVxKey x s = .next t) : NextPc (.ldVxKey x) s t := by
  rcases execLdVxKey_cases h with ⟨hp, rfl⟩ | ⟨hp, b, rfl⟩
  · have hup := (State.pressedKeys_eq_nil_iff t).mp hp
    exact ⟨fun _ => rfl, fun k hk => by simp [hup k] at hk⟩
  · exact ⟨fun hup => absurd ((State.pressedKeys_eq_nil_iff s).mpr hup) hp, fun _ _ => rfl⟩

/-- Settles O12, row by row of R65's table. -/
theorem nextPcTable : Obligations.NextPcTable := by
  intro i s t h _ ht
  cases i with
  | jp nnn => cases h; exact zextAddr_toNat nnn
  | jpV0 nnn => cases h; exact zextAddr_add_zextByte_toNat nnn _
  | call nnn =>
    obtain ⟨u, -, rfl⟩ := of_running (execCall_cases h) ht
    exact zextAddr_toNat nnn
  | ret =>
    obtain ⟨w, u, hp, rfl⟩ := of_running (execRet_cases h) ht
    obtain ⟨-, -, -, -, -, hentry, -⟩ := pop_some hp
    exact fun k hk => hentry k (by omega)
  | seByte x nn | seReg x y => cases h; exact skipsWhen_skipIf s beq_iff_eq
  | sneByte x nn | sneReg x y => cases h; exact skipsWhen_skipIf s bne_iff_ne
  | skp x | sknp x => rw [of_running (keyTest_cases h) ht]; exact skipsWhen_skipIf s beq_iff_eq
  | ldVxKey x => exact nextPc_ldVxKey h
  | ldBcd x => rw [of_running (execLdBcd_cases h) ht]; simp [NextPc]
  | storeRegs x => rw [of_running (execStoreRegs_cases h) ht]; simp [NextPc]
  | loadRegs x => rw [of_running (execLoadRegs_cases h) ht]; simp [NextPc]
  | drw x y n =>
    obtain ⟨rows, rfl⟩ := of_running (execDrw_cases h) ht
    simp [NextPc]
  | addReg x y | sub x y | subn x y | shr x y | shl x y =>
    cases h
    rw [NextPc, State.pc_advance, State.pc_writeFR]
  | ldByte x nn | addByte x nn | ldReg x y | orReg x y | andReg x y | xorReg x y | rnd x nn | ldVxDt x | ldI nnn
  | addI x | ldFont x | ldDtVx x | ldStVx x | cls => cases h; rfl

/-! ## CXNN (R93) -/

/-- Settles O19: the state CXNN answers, its register by `reg_setReg_same`, the rest by composed frames. -/
theorem randomIsMasked : Obligations.RandomIsMasked := by
  intro x nn s
  refine ⟨_, rfl, ?_, fun b hb => ?_, rfl, rfl, (keeps_countDraw s).trans (keeps_writeResult _ x _)⟩
  · simp
  · simp [hb]

end Sys2Proof.Machine
end

section
/-! PROOFS. Statements of the control flow family: jumps, call and return, the skips on registers, and the idle state
(R72-R79, R137). The stack's two operations are `push_some` and `pop_some`; that they succeed while
there is room and while there is an entry is said here. -/

namespace Sys2Proof.Machine

/-! ## Jumps (R73, R75) -/

/-- Settles O5: the state 1NNN answers is `State.setPc` at NNN extended to 16 bits. -/
theorem jumpSetsPc : Obligations.JumpSetsPc :=
  fun nnn s => ⟨s.setPc (zextAddr nnn), rfl, zextAddr_toNat nnn, keeps_setPc s _⟩

/-- Settles O6: the state BNNN answers is `State.setPc` at a sum that does not wrap. -/
theorem offsetJumpSetsPc : Obligations.OffsetJumpSetsPc :=
  fun nnn s => ⟨s.setPc (zextAddr nnn + zextByte (s.reg reg0)), rfl, zextAddr_add_zextByte_toNat nnn _, keeps_setPc s _⟩

/-! ## Call and return (R72, R74) -/

theorem exists_push_of_lt {s : State} (h : s.sp.val < stackDepth) (w : Word) : ∃ t, s.push w = some t :=
  ⟨_, dif_pos h⟩

theorem exists_pop_of_pos {s : State} (h : 0 < s.sp.val) : ∃ w t, s.pop = some (w, t) :=
  ⟨_, _, dif_pos h⟩

theorem exec_call_of_push {s t : State} (nnn : Addr) (h : s.push (s.pc + 2#16) = some t) :
    exec (.call nnn) s = .next (t.setPc (zextAddr nnn)) := by
  simp only [exec, execCall, h]

theorem exec_ret_of_pop {s t : State} {w : Word} (h : s.pop = some (w, t)) : exec .ret s = .next (t.setPc w) := by
  simp only [exec, execRet, h]

/-- 2NNN on a full stack raises (R74). -/
theorem exec_call_of_full {s : State} (nnn : Addr) (h : s.sp.val = stackDepth) :
    exec (.call nnn) s = .next (s.setFault (.stackOverflow s.pc)) := by
  have hp : s.push (s.pc + 2#16) = none := dif_neg h.not_lt
  simp only [exec, execCall, hp, raise]

/-- 00EE on an empty stack raises (R72). -/
theorem exec_ret_of_empty {s : State} (h : s.sp.val = 0) : exec .ret s = .next (s.setFault (.stackUnderflow s.pc)) := by
  have hp : s.pop = none := dif_neg h.not_gt
  simp only [exec, execRet, hp, raise]

/-- Settles O7: below full depth by what the push does (`push_some`), at full depth by the raise. -/
theorem callPushesReturnAddress : Obligations.CallPushesReturnAddress := by
  refine fun nnn s => ⟨fun hroom => ?_, fun hfull => ⟨_, exec_call_of_full nnn hfull, faultsWith_setFault s _⟩⟩
  obtain ⟨t, hp⟩ := exists_push_of_lt hroom (s.pc + 2#16)
  obtain ⟨-, hdepth, -, -, hentry, hkept⟩ := push_some hp
  exact ⟨_, exec_call_of_push nnn hp, zextAddr_toNat nnn, hdepth, fun k hk => (hentry k).trans (if_pos hk),
    fun k hk => (hentry k).trans (if_neg hk), hkept.trans (keeps_setPc t _)⟩

/-- Settles O8: above depth 0 by what the pop does (`pop_some`), at depth 0 by the raise. -/
theorem returnPopsAddress : Obligations.ReturnPopsAddress := by
  refine fun s => ⟨fun hpos => ?_, fun hempty => ⟨_, exec_ret_of_empty hempty, faultsWith_setFault s _⟩⟩
  obtain ⟨w, t, hp⟩ := exists_pop_of_pos hpos
  obtain ⟨-, hdepth, -, -, hstack, hentry, hkept⟩ := pop_some hp
  exact ⟨_, exec_ret_of_pop hp, hdepth, hentry, fun k => by rw [State.stack_setPc, hstack], hkept.trans (keeps_setPc t w)⟩

/-- Settles O9: the call did not fault, so it pushed pc + 2 at the old depth; the return pops that entry from `u`. -/
theorem callThenReturnComesBack : Obligations.CallThenReturnComesBack := by
  intro nnn s t u hcall hfault hs hsp hstack
  obtain ⟨s', hpush, rfl⟩ := of_running (execCall_cases hcall) (hfault.trans hs)
  obtain ⟨hroom, hdepth, -, -, hentry, -⟩ := push_some hpush
  have husp : u.sp.val = s.sp.val + 1 := by rw [hsp, State.sp_setPc, hdepth]
  have htopIndex : s.sp.val = u.sp.val - 1 := by omega
  obtain ⟨w, u', hpop⟩ := exists_pop_of_pos (s := u) (by omega)
  obtain ⟨-, hdepth', -, -, -, htop, -⟩ := pop_some hpop
  refine ⟨_, exec_ret_of_pop hpop, ?_, Fin.ext ?_⟩
  · calc w = u.stack[s.sp.val] := htop ⟨s.sp.val, hroom⟩ htopIndex
      _ = s'.stack[s.sp.val] := hstack ⟨s.sp.val, hroom⟩
      _ = s.pc + 2#16 := (hentry ⟨s.sp.val, hroom⟩).trans (if_pos rfl)
  · rw [State.sp_setPc]; omega

/-! ## Skips on registers (R76-R79) -/

/-- Settles O10: each skip is `State.skipIf` with the Boolean that decides its condition. -/
theorem registerSkips : Obligations.RegisterSkips := fun _ _ _ s =>
  ⟨⟨_, rfl, skipsWhen_skipIf s beq_iff_eq, keeps_skipIf s _⟩, ⟨_, rfl, skipsWhen_skipIf s bne_iff_ne, keeps_skipIf s _⟩,
    ⟨_, rfl, skipsWhen_skipIf s beq_iff_eq, keeps_skipIf s _⟩, ⟨_, rfl, skipsWhen_skipIf s bne_iff_ne, keeps_skipIf s _⟩⟩

/-! ## The idle state (R137) -/

/-- An address below 0x1000 loses nothing as an NNN field. -/
theorem zextAddr_setWidth {w : Word} (h : w.toNat < 0x1000) : zextAddr (w.setWidth 12) = w := by
  apply BitVec.eq_of_toNat_eq
  rw [zextAddr_toNat, BitVec.toNat_setWidth, Nat.mod_eq_of_lt h]

/-- The word `0x1000 OR a` is the jump to `a` (R52, R73). -/
theorem encode_jp (nnn : Addr) : encode (.jp nnn) = 0x1000#16 ||| zextAddr nnn := rfl

/-- The word at an idle pc decodes to the jump to that pc. -/
theorem exists_decode_of_idle {s : State} (h : Idle s) :
    ∃ nnn, decode (wordAtPc s) = .ok (.jp nnn) ∧ zextAddr nnn = s.pc := by
  obtain ⟨-, hpc, hword⟩ := h
  have htarget : zextAddr (s.pc.setWidth 12) = s.pc := zextAddr_setWidth (by omega)
  have hencode : wordAtPc s = encode (.jp (s.pc.setWidth 12)) := by rw [hword, encode_jp, htarget]
  exact ⟨_, by rw [hencode, decode_encode rfl], htarget⟩

/-- A jump to its own pc changes nothing. -/
theorem exec_jp_self {nnn : Addr} {s : State} (h : zextAddr nnn = s.pc) : exec (.jp nnn) s = .next s := by
  simp only [exec, execJp, h]
  rfl

/-- Settles O40: the step is the jump to its own pc, which sets pc to what it was. -/
theorem idleStateStays : Obligations.IdleStateStays := by
  intro s hidle hf
  have hs : s.fault = none := hidle.1
  obtain ⟨nnn, hdecode, htarget⟩ := exists_decode_of_idle hidle
  have hexec : exec (.jp nnn) s = .next s := exec_jp_self htarget
  have hreturn : returnAfter (.jp nnn) s s = .executed := by simp [returnAfter, hs, waits]
  exact ⟨(stepRunsDecodedInstruction s _ hs hf hdecode).trans hexec,
    (stepReturn_of_decoded hs hf hdecode hexec).trans (congrArg some hreturn)⟩

end Sys2Proof.Machine
end

section
/-! PROOFS. Statements of the ALU family (R82-R92). Each instruction is `writeResult` or `writeFlagged` of a byte the
operations of R81 compute: what the two leave in the registers is said once, and what the bytes are, as numbers, once. -/

namespace Sys2Proof.Machine

/-! ## The results and flags as numbers (R81) -/

theorem sumByte_toNat (a b : Byte) : (sumByte a b).toNat = (a.toNat + b.toNat) % 256 := BitVec.toNat_ofNat ..

theorem carryFlag_toNat (a b : Byte) : (carryFlag a b).toNat = if 255 < a.toNat + b.toNat then 1 else 0 := by
  simp [carryFlag, flagByte_toNat]

theorem diffByte_toNat (a b : Byte) : (diffByte a b).toNat = (a.toNat + 256 - b.toNat) % 256 := by
  have hb : b.toNat < 256 := b.isLt
  rw [diffByte, BitVec.toNat_ofInt]
  omega

theorem noBorrowFlag_toNat (a b : Byte) : (noBorrowFlag a b).toNat = if b.toNat ≤ a.toNat then 1 else 0 := by
  simp [noBorrowFlag, flagByte_toNat]

/-- Half a byte fits a byte. -/
theorem shrByte_toNat (a : Byte) : (shrByte a).toNat = a.toNat / 2 := by
  have ha : a.toNat < 256 := a.isLt
  rw [shrByte, BitVec.toNat_ofNat]
  omega

/-- A flag that shows bit k of a byte is that binary digit. -/
theorem flagByte_getLsbD_toNat (a : Byte) (k : Nat) : (flagByte (a.getLsbD k)).toNat = a.toNat / 2 ^ k % 2 := by
  rw [flagByte_toNat, ← BitVec.testBit_toNat, ← Nat.toNat_testBit, Bool.toNat, Bool.cond_eq_ite]

theorem shrFlag_toNat (a : Byte) : (shrFlag a).toNat = a.toNat % 2 := by
  rw [shrFlag, flagByte_getLsbD_toNat, Nat.pow_zero, Nat.div_one]

theorem shlByte_toNat (a : Byte) : (shlByte a).toNat = a.toNat * 2 % 256 := BitVec.toNat_ofNat ..

/-- Bit 7 is the top bit: the quotient by 128 is a binary digit already. -/
theorem shlFlag_toNat (a : Byte) : (shlFlag a).toNat = a.toNat / 128 := by
  have ha : a.toNat < 256 := a.isLt
  have hdigit : (shlFlag a).toNat = a.toNat / 128 % 2 := flagByte_getLsbD_toNat a 7
  omega

/-! ## What `writeResult` and `writeFlagged` leave in the registers (R68) -/

theorem reg_writeResult (s : State) (x : Reg) (b : Byte) : (s.setReg x b).advance.reg x = b := by
  rw [State.reg_advance, State.reg_setReg_same]

/-- A destination other than VF: result and flag each in its register, whatever the order of the writes. -/
theorem reg_writeFlagged_of_ne (s : State) {x : Reg} (hx : x ≠ regF) (flag b : Byte) :
    (s.writeFR x flag b).advance.reg x = b ∧ (s.writeFR x flag b).advance.reg regF = flag := by
  simp [State.reg_writeFR, hx, hx.symm]

/-- The destination VF: the later of the two writes stands. -/
theorem reg_writeFlagged_regF (s : State) (flag b : Byte) :
    (s.writeFR regF flag b).advance.reg regF = if s.params.vfWriteOrder = .flagThenResult then b else flag := by
  simp [State.reg_writeFR]

theorem flagAndResult_writeFlagged (s : State) (x : Reg) {flag b : Byte} {f r : Nat} (hf : flag.toNat = f) (hr : b.toNat = r) :
    FlagAndResult x f r s (s.writeFR x flag b).advance := by
  refine ⟨fun hx => ?_, ?_, ?_, ?_, keeps_writeFlagged s x flag b⟩
  · obtain ⟨hresult, hflag⟩ := reg_writeFlagged_of_ne s hx flag b
    rw [hresult, hflag]
    exact ⟨hr, hf⟩
  · rintro rfl horder
    rw [reg_writeFlagged_regF, if_pos horder, hr]
  · rintro rfl horder
    rw [reg_writeFlagged_regF, horder, if_neg (by decide), hf]
  · rw [State.pc_advance, State.pc_writeFR]

/-! ## Instructions that write no flag (R82-R87) -/

/-- Settles O13: `writeResult` of NN and of Vy. -/
theorem loadsWriteRegister : Obligations.LoadsWriteRegister := fun x y nn s =>
  ⟨⟨_, rfl, reg_writeResult s x nn, rfl, keeps_writeResult s x nn⟩,
    ⟨_, rfl, reg_writeResult s x (s.reg y), rfl, keeps_writeResult s x _⟩⟩

/-- Settles O14: `writeResult` of the sum modulo 256. -/
theorem addImmediateWraps : Obligations.AddImmediateWraps := fun x nn s =>
  ⟨_, rfl, by rw [reg_writeResult, sumByte_toNat], rfl, keeps_writeResult s x _⟩

/-- Settles O15: `writeResult` of the bitwise operations on bit vectors, read at each bit. -/
theorem logicIsBitwise : Obligations.LogicIsBitwise := fun x _ s =>
  ⟨⟨_, rfl, rfl, keeps_writeResult s x _, fun _ => by rw [reg_writeResult, BitVec.getLsbD_or]⟩,
    ⟨_, rfl, rfl, keeps_writeResult s x _, fun _ => by rw [reg_writeResult, BitVec.getLsbD_and]⟩,
    ⟨_, rfl, rfl, keeps_writeResult s x _, fun _ => by rw [reg_writeResult, BitVec.getLsbD_xor]⟩⟩

/-! ## Instructions with a flag (R88-R92) -/

/-- Settles O16: `writeFlagged` of the carry and the sum. -/
theorem addReportsCarry : Obligations.AddReportsCarry := fun x _ s =>
  ⟨_, rfl, flagAndResult_writeFlagged s x (carryFlag_toNat _ _) (sumByte_toNat _ _)⟩

/-- Settles O17: `writeFlagged` of "no borrow" and the difference, the operands one way and the other. -/
theorem subtractionsReportNoBorrow : Obligations.SubtractionsReportNoBorrow := fun x _ s =>
  ⟨⟨_, rfl, flagAndResult_writeFlagged s x (noBorrowFlag_toNat _ _) (diffByte_toNat _ _)⟩,
    ⟨_, rfl, flagAndResult_writeFlagged s x (noBorrowFlag_toNat _ _) (diffByte_toNat _ _)⟩⟩

/-- Settles O18: `writeFlagged` of the bit shifted out and the shifted byte. -/
theorem shiftsReportBitShiftedOut : Obligations.ShiftsReportBitShiftedOut := fun x _ s =>
  ⟨⟨_, rfl, flagAndResult_writeFlagged s x (shrFlag_toNat _) (shrByte_toNat _)⟩,
    ⟨_, rfl, flagAndResult_writeFlagged s x (shlFlag_toNat _) (shlByte_toNat _)⟩⟩

end Sys2Proof.Machine
end

section
/-! PROOFS. Statements of the index and memory transfer family (R95, R97-R100). The checked block accesses of R38 are
said once, where they pass and where they fail; each of FX33, FX55 and FX65 has one equation for either case. -/

namespace Sys2Proof.Machine

/-! ## ANNN and FX29 (R95, R97) -/

/-- Five times a byte is at most 1275, so I holds it unreduced. -/
theorem glyphAddress_toNat (b : Byte) : (glyphAddress b).toNat = b.toNat * 5 := by
  have hb : b.toNat < 256 := b.isLt
  rw [glyphAddress, BitVec.toNat_ofNat]
  omega

theorem keeps_setIndex_advance (s : State) (w : Word) : KeepsAllBut [] [.index] s (s.setIndex w).advance :=
  (keeps_setIndex s w).trans (keeps_advance _)

/-- Settles O20: both are `State.setIndex` and the next pc. -/
theorem indexLoads : Obligations.IndexLoads := fun nnn x s =>
  ⟨⟨_, rfl, zextAddr_toNat nnn, rfl, keeps_setIndex_advance s _⟩,
    ⟨_, rfl, glyphAddress_toNat (s.reg x), rfl, keeps_setIndex_advance s _⟩⟩

/-! ## Block accesses that pass their check, and block accesses that fail it (R38) -/

theorem storeBlock_of_writable {s : State} {a n : Nat} {bs : List Byte} (hw : Writable a n s) (hn : bs.length = n) :
    s.storeBlock a bs = .ok (s.setBytes a bs) := by
  obtain ⟨hend, hfont⟩ := hw
  rw [State.storeBlock, hn, checkBlock_write_none _ _ _ hend hfont]

theorem storeBlock_of_check {s : State} {a n : Nat} {bs : List Byte} {f : Fault}
    (h : checkBlock s.params .write a n = some f) (hn : bs.length = n) : s.storeBlock a bs = .error f := by
  rw [State.storeBlock, hn, h]

theorem loadBlock_of_check {s : State} {a n : Nat} {f : Fault} (h : checkBlock s.params .read a n = some f) :
    s.loadBlock a n = .error f := by
  rw [State.loadBlock, h]

/-- An operation that raises the fault of its block check faults as R38 says a write does. -/
theorem writeFaults_of_check {s : State} {n : Nat} {answer : State → Prop} (h0 : 0 < n) (hn : n ≤ 16)
    (h : ∀ f, checkBlock s.params .write s.base n = some f → answer (s.setFault f)) : WriteFaults s.base n s answer :=
  ⟨fun hfont hp => ⟨_, h _ (checkBlock_write_some_font _ _ _ h0 hfont hp), faultsWith_setFault s _⟩,
    fun hend => ⟨_, h _ (checkBlock_write_some_range _ _ _ h0 hn hend), faultsWith_setFault s _⟩⟩

/-- An operation that raises the fault of its block check faults as R38 says a read does. -/
theorem readFaults_of_check {s : State} {n : Nat} {answer : State → Prop}
    (h : ∀ f, checkBlock s.params .read s.base n = some f → answer (s.setFault f)) : ReadFaults s.base n s answer :=
  fun h0 hend => ⟨_, h _ (checkBlock_read_some _ _ _ h0 hend), faultsWith_setFault s _⟩

theorem memoryKeptOutside_setBytes (s : State) (a : Nat) {n : Nat} {bs : List Byte} (hn : bs.length = n) :
    MemoryKeptOutside a n s (s.setBytes a bs) := by
  subst hn
  exact fun _ hout => State.byteAt_setBytes_other bs s hout

/-! ## FX33 (R98) -/

theorem exec_ldBcd_of_writable {x : Reg} {s : State} (hw : Writable s.base 3 s) :
    exec (.ldBcd x) s = .next (s.setBytes s.base (decimalDigits (s.reg x))).advance := by
  simp only [exec, execLdBcd, storeBlock_of_writable (bs := decimalDigits (s.reg x)) hw rfl]

theorem exec_ldBcd_of_check {x : Reg} {s : State} {f : Fault} (h : checkBlock s.params .write s.base 3 = some f) :
    exec (.ldBcd x) s = .next (s.setFault f) := by
  simp only [exec, execLdBcd, storeBlock_of_check (bs := decimalDigits (s.reg x)) h rfl, raise]

/-- Each of the three digits fits a byte. -/
theorem decimalDigits_toNat (b : Byte) :
    (decimalDigits b).map BitVec.toNat = [b.toNat / 100, b.toNat / 10 % 10, b.toNat % 10] := by
  have hb : b.toNat < 256 := b.isLt
  simp only [decimalDigits, List.map_cons, List.map_nil, BitVec.toNat_ofNat, List.cons.injEq, and_true]
  omega

/-- The stored digits, as numbers, in the order of their addresses. -/
theorem byteAt_setBytes_decimalDigits_toNat {s : State} (hm : MemoryCanonical s) {a : Nat} (hend : a + 3 ≤ memSize) (b : Byte)
    (k : Fin 3) : ((s.setBytes a (decimalDigits b)).byteAt (a + k.val)).toNat =
      [b.toNat / 100, b.toNat / 10 % 10, b.toNat % 10][k] := by
  simp only [State.byteAt_setBytes_in (decimalDigits b) s hm a k.val k.isLt hend, ← decimalDigits_toNat]
  exact (List.getElem_map _).symm

/-- Settles O23: the digits by the block write's reads, the faults by its check. -/
theorem bcdStoresDigits : Obligations.BcdStoresDigits := by
  refine fun x s hm => ⟨fun hw => ?_, writeFaults_of_check (by decide) (by decide) fun _ => exec_ldBcd_of_check⟩
  have hdigit := byteAt_setBytes_decimalDigits_toNat hm hw.1 (s.reg x)
  exact ⟨_, exec_ldBcd_of_writable hw, hdigit 0, hdigit 1, hdigit 2, memoryKeptOutside_setBytes s s.base rfl, by simp,
    (keeps_setBytes s s.base _).trans (keeps_advance _)⟩

/-! ## FX55 and FX65 (R99, R100) -/

theorem indexPlus_blockCount_toNat (i : Word) (x : Reg) :
    (indexPlus i (blockCount x)).toNat = (i.toNat + x.val + 1) % 65536 := indexPlus_toNat i (blockCount x)

theorem exec_storeRegs_of_writable {x : Reg} {s : State} (hw : Writable s.base (x.val + 1) s) :
    exec (.storeRegs x) s =
      .next ((s.setBytes s.base (s.regsUpTo x)).setIndex (indexPlus s.i (blockCount x))).advance := by
  simp only [exec, execStoreRegs, storeBlock_of_writable hw (s.regsUpTo_length x)]

theorem exec_storeRegs_of_check {x : Reg} {s : State} {f : Fault}
    (h : checkBlock s.params .write s.base (x.val + 1) = some f) : exec (.storeRegs x) s = .next (s.setFault f) := by
  simp only [exec, execStoreRegs, storeBlock_of_check h (s.regsUpTo_length x), raise]

theorem exec_loadRegs_of_readable {x : Reg} {s : State} (hr : Readable s.base (blockCount x)) :
    exec (.loadRegs x) s =
      .next ((s.setRegsFrom 0 (s.bytesAt s.base (blockCount x))).setIndex (indexPlus s.i (blockCount x))).advance := by
  simp only [exec, execLoadRegs, (loadBlock_ok_iff _ _ _ _).mpr ⟨hr, rfl⟩]

theorem exec_loadRegs_of_check {x : Reg} {s : State} {f : Fault}
    (h : checkBlock s.params .read s.base (blockCount x) = some f) : exec (.loadRegs x) s = .next (s.setFault f) := by
  simp only [exec, execLoadRegs, loadBlock_of_check h, raise]

/-- A register of the loaded range holds the byte at its place in the block. -/
theorem reg_setRegsFrom_bytesAt (s : State) (a : Nat) {n : Nat} {k : Reg} (hk : k.val < n) :
    (s.setRegsFrom 0 (s.bytesAt a n)).reg k = s.byteAt (a + k.val) := by
  rw [State.reg_setRegsFrom, dif_pos (by simpa using hk), State.bytesAt_getElem, Nat.sub_zero]

/-- Settles O24: the bytes by `byteAt_of_exec_storeRegs`, the faults by the block write's check. -/
theorem blockStoreWritesRegisters : Obligations.BlockStoreWritesRegisters := by
  refine fun x s hm => ⟨fun hw => ?_, writeFaults_of_check (Nat.succ_pos _) x.isLt fun _ => exec_storeRegs_of_check⟩
  have hexec := exec_storeRegs_of_writable hw
  exact ⟨_, hexec, fun k => byteAt_of_exec_storeRegs hm hw hexec, indexPlus_blockCount_toNat s.i x,
    memoryKeptOutside_setBytes s s.base (s.regsUpTo_length x), by simp,
    (keeps_setBytes s s.base _).trans (keeps_setIndex_advance _ _)⟩

/-- Settles O25: the registers by `reg_setRegsFrom_bytesAt`, the faults by the block read's check. -/
theorem blockLoadReadsRegisters : Obligations.BlockLoadReadsRegisters := by
  refine fun x s => ⟨fun hr => ?_, readFaults_of_check fun _ => exec_loadRegs_of_check⟩
  have hloaded := keeps_setRegsFrom s (s.bytesAt s.base (blockCount x)) x (s.bytesAt_length _ _)
  refine ⟨_, exec_loadRegs_of_readable hr, fun k hk => reg_setRegsFrom_bytesAt s s.base (Nat.lt_succ_of_le hk),
    indexPlus_blockCount_toNat s.i x, by simp, ?_⟩
  simpa using hloaded.trans (keeps_setIndex_advance _ _)

/-- Settles O26: the load reads at the store's addresses what the store wrote there, and moves I on by as much. -/
theorem storeThenLoadRestoresRegisters : Obligations.StoreThenLoadRestoresRegisters := by
  intro x s t u hm hw hstore hi hmem
  obtain ⟨t', hstore', hstored, hti, -⟩ := (blockStoreWritesRegisters x s hm).1 hw
  cases hstore.symm.trans hstore'
  have hbase : u.base = s.base := congrArg BitVec.toNat hi
  have hr : Readable u.base (x.val + 1) := .inr (hbase ▸ hw.1)
  obtain ⟨w, hload, hregs, hwi, -⟩ := (blockLoadReadsRegisters x u).1 hr
  refine ⟨w, hload, BitVec.eq_of_toNat_eq (by rw [hwi, hti, hi]), fun k hk => ?_⟩
  calc w.reg k = u.byteAt (u.base + k.val) := hregs k hk
    _ = t.byteAt (s.base + k.val) := by rw [hmem, hbase]
    _ = s.reg k := hstored k hk

end Sys2Proof.Machine
end

section
/-! PROOFS. Statements of the display family (R101-R106). The pixels a sprite touches are those `SpriteCovers` names; a
draw is then said once, pixels and collision apart, and the second of two equal draws follows from applying it twice. -/

namespace Sys2Proof.Machine

/-! ## 00E0 (R103) -/

/-- Settles O28: the blank screen has no pixel set. -/
theorem clearScreen : Obligations.ClearScreen := fun s =>
  ⟨_, rfl, pixelAt_blank, rfl, rfl, (keeps_setDisplay s blankScreen).trans (keeps_advance _)⟩

/-! ## Where a sprite's bits land (R101, R102) -/

theorem pixelIndex_eq_some_iff {edge : DrawEdge} {x0 y0 c r p : Nat} :
    pixelIndex edge x0 y0 c r = some p ↔ LandsOn edge x0 y0 c r p := by
  cases edge with
  | wrap => simp only [pixelIndex, LandsOn, Option.some.injEq, eq_comm]
  | clip => simp only [pixelIndex, LandsOn, Option.ite_none_right_eq_some, Option.some.injEq, and_assoc, eq_comm (b := p)]

/-- The engine's pixel list, for the rows that DXYN reads. -/
theorem mem_spritePixels_bytesAt (s : State) (x y : Reg) (n p : Nat) :
    p ∈ spritePixels s.params.drawEdge (s.reg x).toNat (s.reg y).toNat 0 (s.bytesAt s.base n) ↔ SpriteCovers s x y n p := by
  simp only [mem_spritePixels, State.bytesAt_length, State.bytesAt_getElem, pixelIndex_eq_some_iff, Nat.zero_add]
  exact exists_congr fun r => exists_congr fun c =>
    ⟨fun ⟨hr, hc, hbit, hland⟩ => ⟨⟨hr, hc, hbit⟩, hland⟩, fun ⟨⟨hr, hc, hbit⟩, hland⟩ => ⟨hr, hc, hbit, hland⟩⟩

/-! ## The order of the pixels (R106 (a)) -/

/-- Pixels and collision depend on which distinct pixels are plotted, not on their order. -/
theorem plotAll_perm {ns ms : List Nat} (cv : Canvas) (h : ms.Perm ns) (hd : ns.Nodup) (hl : ∀ n ∈ ns, n < fbW * fbH) :
    cv.plotAll ms = cv.plotAll ns := by
  obtain ⟨hpx, hhit⟩ := plotAll_spec ns cv hd hl
  obtain ⟨hpx', hhit'⟩ := plotAll_spec ms cv (h.nodup_iff.mpr hd) fun n hn => hl n (h.mem_iff.mp hn)
  refine Canvas.eq_of (fun m => ?_) ?_
  · simp only [hpx, hpx', h.mem_iff]
  · rw [hhit, hhit', h.any_eq]

/-- Settles O56: positions by `pixelIndex_inj`, the order by `plotAll_perm`. -/
theorem spriteOrderIsUnobservable : Obligations.SpriteOrderIsUnobservable := by
  refine fun edge x0 y0 => ⟨fun c r c' r' p hc hc' hr hr' h h' => ?_, fun rows fb order hlen hperm => ?_⟩
  · exact pixelIndex_inj hc hc' (by omega) (by omega) (pixelIndex_eq_some_iff.mpr h) (pixelIndex_eq_some_iff.mpr h')
  · exact plotAll_perm ⟨fb, false⟩ hperm (spritePixels_nodup rows 0 (by omega)) fun _ => spritePixels_lt

/-! ## What a draw writes (R104, R105) -/

@[simp] theorem State.fb_writeCollision (s : State) (hit : Bool) : (s.writeCollision hit).fb = s.fb := by
  rw [State.writeCollision_eq_v]

/-- VF of `t` after a draw into `s`, given whether it collided (R105). -/
def ReportsCollision (collided : Prop) (s t : State) : Prop :=
  (collided → t.reg regF = 1) ∧ (¬ collided → t.reg regF = if s.params.drawVfClear = true then 0 else s.reg regF)

theorem reportsCollision_writeCollision (s : State) (hit : Bool) : ReportsCollision (hit = true) s (s.writeCollision hit) := by
  cases hclear : s.params.drawVfClear <;> cases hit <;> simp [ReportsCollision, State.writeCollision, hclear, flagByte]

/-- The screen and the collision that DXYN computes in `s`. -/
def State.drawn (s : State) (x y : Reg) (n : Nat) : Canvas :=
  drawSprite s.params.drawEdge (s.reg x).toNat (s.reg y).toNat (s.bytesAt s.base n) s.fb

theorem State.draw_bytesAt (s : State) (x y : Reg) (n : Nat) : s.draw x y (s.bytesAt s.base n) =
    (s.setDisplay (s.drawn x y n).fb).writeCollision (s.drawn x y n).hit := rfl

/-- The engine's law, `drawSprite_spec`, for the rows that DXYN reads. -/
theorem State.drawn_spec (s : State) (x y : Reg) {n : Nat} (hn : n < 16) :
    (∀ p, pixelAt (s.drawn x y n).fb p = true ↔ ¬ (s.pixel p = true ↔ SpriteCovers s x y n p)) ∧
    ((s.drawn x y n).hit = true ↔ ∃ p, SpriteCovers s x y n p ∧ s.pixel p = true) := by
  have hlen : (s.bytesAt s.base n).length ≤ 32 := by rw [State.bytesAt_length]; omega
  obtain ⟨hpx, hhit⟩ := drawSprite_spec s.params.drawEdge (s.reg x).toNat (s.reg y).toNat _ s.fb hlen
  simp only [mem_spritePixels_bytesAt] at hhit
  refine ⟨fun p => ?_, hhit⟩
  rw [State.drawn, hpx, Bool.xor_iff_ne, ne_eq, Bool.eq_iff_iff, decide_eq_true_iff, mem_spritePixels_bytesAt, State.pixel]

/-- A pixel after a draw: the exclusive or of its old value and of being covered. -/
theorem State.pixel_draw (s : State) (x y : Reg) {n : Nat} (hn : n < 16) (p : Nat) :
    (s.draw x y (s.bytesAt s.base n)).pixel p = true ↔ ¬ (s.pixel p = true ↔ SpriteCovers s x y n p) := by
  rw [State.draw_bytesAt, State.pixel, State.fb_writeCollision]
  exact (s.drawn_spec x y hn).1 p

/-- A draw collides where a covered pixel was 1 before it. -/
theorem reportsCollision_draw (s : State) (x y : Reg) {n : Nat} (hn : n < 16) :
    ReportsCollision (∃ p, SpriteCovers s x y n p ∧ s.pixel p = true) s (s.draw x y (s.bytesAt s.base n)) := by
  rw [← (s.drawn_spec x y hn).2]
  exact reportsCollision_writeCollision (s.setDisplay (s.drawn x y n).fb) (s.drawn x y n).hit

/-! ## DXYN (R104) -/

theorem exec_drw_of_readable {x y : Reg} {n : Nat} {s : State} (hr : Readable s.base n) :
    exec (.drw x y n) s = .next (s.draw x y (s.bytesAt s.base n)).advance := by
  simp only [exec, execDrw, (loadBlock_ok_iff _ _ _ _).mpr ⟨hr, rfl⟩]

theorem exec_drw_of_check {x y : Reg} {n : Nat} {s : State} {f : Fault}
    (h : checkBlock s.params .read s.base n = some f) : exec (.drw x y n) s = .next (s.setFault f) := by
  simp only [exec, execDrw, loadBlock_of_check h, raise]

/-- Settles O29: the pixels by `State.pixel_draw`, VF by `reportsCollision_draw`, the fault by the block read's check. -/
theorem drawXorsSpriteIntoScreen : Obligations.DrawXorsSpriteIntoScreen := by
  refine fun x y n s hn => ⟨fun hr => ?_, readFaults_of_check fun _ => exec_drw_of_check⟩
  obtain ⟨hcollided, hclear⟩ := reportsCollision_draw s x y hn
  exact ⟨_, exec_drw_of_readable hr, s.pixel_draw x y hn, hcollided, hclear, by simp, by simp, keeps_draw s x y _⟩

theorem pixel_of_exec_drw {x y : Reg} {n : Nat} {s t : State} (hn : n < 16) (hr : Readable s.base n)
    (h : exec (.drw x y n) s = .next t) (p : Nat) : t.pixel p = true ↔ ¬ (s.pixel p = true ↔ SpriteCovers s x y n p) := by
  cases h.symm.trans (exec_drw_of_readable hr)
  exact s.pixel_draw x y hn p

/-- The pixels that a draw turns from 0 to 1 are the covered ones that were 0. -/
theorem set_by_draw_iff {x y : Reg} {n : Nat} {s t : State} (hn : n < 16) (hr : Readable s.base n)
    (h : exec (.drw x y n) s = .next t) (p : Nat) :
    s.pixel p = false ∧ t.pixel p = true ↔ SpriteCovers s x y n p ∧ s.pixel p = false := by
  rw [pixel_of_exec_drw hn hr h, ← Bool.not_eq_true]; tauto

/-! ## The second of two equal draws (R106 (b)) -/

/-- DXYN reads in `u` the sprite and the origin that it reads in `s`. -/
structure SameSprite (x y : Reg) (s u : State) : Prop where
  index : u.i = s.i
  column : u.reg x = s.reg x
  row : u.reg y = s.reg y
  params : u.params = s.params
  bytes : ∀ a, u.byteAt a = s.byteAt a

theorem SameSprite.spriteCovers_iff {x y : Reg} {s u : State} (h : SameSprite x y s u) (n p : Nat) :
    SpriteCovers u x y n p ↔ SpriteCovers s x y n p := by
  simp only [SpriteCovers, SpriteSets, h.index, h.column, h.row, h.params, h.bytes]

theorem SameSprite.readable_iff {x y : Reg} {s u : State} (h : SameSprite x y s u) (n : Nat) :
    Readable u.base n ↔ Readable s.base n := by
  rw [State.base, h.index, State.base]

/-- The second draw answers a state with every pixel of before the first, and collides where the first set a pixel. -/
theorem exists_second_draw {x y : Reg} {n : Nat} {s t u : State} (hn : n < 16) (hr : Readable s.base n)
    (hfirst : exec (.drw x y n) s = .next t) (hu : SameSprite x y s u) (hpx : ∀ p, u.pixel p = t.pixel p) :
    ∃ w, exec (.drw x y n) u = .next w ∧ (∀ p, w.pixel p = s.pixel p) ∧
      ReportsCollision (∃ p, SpriteCovers s x y n p ∧ s.pixel p = false) u w := by
  have hdrawn (p : Nat) : u.pixel p = true ↔ ¬ (s.pixel p = true ↔ SpriteCovers s x y n p) := by
    rw [hpx, pixel_of_exec_drw hn hr hfirst]
  obtain ⟨w, hw, hxor, hcollided, hclear, -⟩ := (drawXorsSpriteIntoScreen x y n u hn).1 ((hu.readable_iff n).mpr hr)
  have hmet (p : Nat) : SpriteCovers u x y n p ∧ u.pixel p = true ↔ SpriteCovers s x y n p ∧ s.pixel p = false := by
    rw [hu.spriteCovers_iff, hdrawn, ← Bool.not_eq_true]; tauto
  simp only [hmet] at hcollided hclear
  refine ⟨w, hw, fun p => ?_, hcollided, hclear⟩
  rw [Bool.eq_iff_iff, hxor, hdrawn, hu.spriteCovers_iff]; tauto

/-- Settles O30: `exists_second_draw`, its collision by `set_by_draw_iff`. -/
theorem drawTwiceRestoresScreen : Obligations.DrawTwiceRestoresScreen := by
  intro x y n s t u hn hr hfirst hi hx hy hp hmem hpx
  obtain ⟨w, hw, hrestored, hvf⟩ := exists_second_draw hn hr hfirst ⟨hi, hx, hy, hp, hmem⟩ hpx
  simp only [set_by_draw_iff hn hr hfirst]
  rw [ReportsCollision, hp] at hvf
  exact ⟨w, hw, hrestored, hvf⟩

/-- Settles O55: `exists_second_draw`; without a covered pixel its VF is the 0 of a draw that does not collide. -/
theorem secondDrawReportsDrawnPixels : Obligations.SecondDrawReportsDrawnPixels := by
  intro x y n s t u hn hr hfirst hi hx hy hp hmem hpx
  obtain ⟨w, hw, -, hcollided, hclear⟩ := exists_second_draw hn hr hfirst ⟨hi, hx, hy, hp, hmem⟩ hpx
  rw [hp] at hclear
  refine ⟨w, hw, hcollided, fun hlit => hclear ?_, fun hdark hpolicy => ⟨fun hvf => ?_, ?_⟩⟩
  · rintro ⟨p, hcov, hzero⟩
    simp [hlit p hcov] at hzero
  · by_contra hnone
    have hzero := hclear fun ⟨p, hcov, _⟩ => hnone ⟨p, hcov⟩
    rw [hvf, if_pos hpolicy] at hzero
    exact absurd hzero (by decide)
  · rintro ⟨p, hcov⟩
    exact hcollided ⟨p, hcov, hdark p hcov⟩

end Sys2Proof.Machine
end

section
/-! PROOFS. Statements of the keypad and timer family (R107-R113). The pressed keys are a rising list, so its first is the
lowest, and whatever `drawKey` takes is one of them; FX0A is said once per case of that list. -/

namespace Sys2Proof.Machine

/-! ## FX07, FX15, FX18 (R111-R113) -/

/-- Settles O32: one register or timer write each, and the next pc. -/
theorem timerInstructions : Obligations.TimerInstructions := fun x s =>
  ⟨⟨_, rfl, s.reg_setReg_same x s.dt, rfl, keeps_writeResult s x s.dt⟩,
    ⟨_, rfl, rfl, rfl, (keeps_setDelay s _).trans (keeps_advance _)⟩,
    ⟨_, rfl, rfl, rfl, (keeps_setSound s _).trans (keeps_advance _)⟩⟩

/-! ## EX9E and EXA1 (R107-R109) -/

/-- A key test of a key that exists skips when the key's state is the wanted one. -/
theorem keyTest_of_le {x : Reg} {s : State} (want : Bool) (h : (s.reg x).toNat ≤ 0x0F) :
    keyTest want x s = .next (s.skipIf (s.keyDown (s.reg x).toNat == want)) :=
  if_neg h.not_gt

/-- A key test above key 15 raises. -/
theorem keyTest_of_gt {x : Reg} {s : State} (want : Bool) (h : 0x0F < (s.reg x).toNat) :
    keyTest want x s = .next (s.setFault (.keyIndexOutOfRange (s.reg x))) :=
  if_pos h

/-- Settles O11: EX9E and EXA1 are `keyTest` for a key down and for a key up. -/
theorem keySkips : Obligations.KeySkips := fun _ s =>
  ⟨fun hkey => ⟨⟨_, keyTest_of_le true hkey, skipsWhen_skipIf s beq_iff_eq, keeps_skipIf s _⟩,
      ⟨_, keyTest_of_le false hkey, skipsWhen_skipIf s beq_iff_eq, keeps_skipIf s _⟩⟩,
    fun hnone => ⟨⟨_, keyTest_of_gt true hnone, faultsWith_setFault s _⟩,
      ⟨_, keyTest_of_gt false hnone, faultsWith_setFault s _⟩⟩⟩

/-! ## The key FX0A takes (R110) -/

theorem State.lt_of_keyDown {s : State} {k : Nat} (h : s.keyDown k = true) : k < 16 := by
  by_contra hk
  rw [s.keyDown_of_ge (Nat.not_lt.mp hk)] at h
  cases h

theorem State.mem_pressedKeys_iff (s : State) (k : Nat) : k ∈ s.pressedKeys ↔ s.keyDown k = true := by
  rw [State.pressedKeys, List.mem_filter, List.mem_range]
  exact and_iff_right_of_imp State.lt_of_keyDown

theorem State.pressedKeys_pairwise_lt (s : State) : s.pressedKeys.Pairwise (· < ·) :=
  List.pairwise_lt_range.filter _

/-- The first pressed key is the lowest. -/
theorem State.head_pressedKeys_le {s : State} {k j : Nat} {more : List Nat} (hp : s.pressedKeys = k :: more)
    (hj : s.keyDown j = true) : k ≤ j := by
  have hrising : (k :: more).Pairwise (· < ·) := hp ▸ s.pressedKeys_pairwise_lt
  have hmem : j ∈ k :: more := hp ▸ (s.mem_pressedKeys_iff j).mpr hj
  rcases List.mem_cons.mp hmem with rfl | hmore
  · exact le_rfl
  · exact (List.rel_of_pairwise_cons hrising hmore).le

/-- Whatever the choice, `draw_key` takes one of the keys it is given. -/
theorem drawKey_mem (sel : KeySelect) (c k : Nat) (more : List Nat) : drawKey sel c k more ∈ k :: more := by
  unfold drawKey
  split
  · exact List.mem_cons_self
  · exact List.mem_cons_self
  · next k' rest =>
    have hlt : c % (rest.length + 2) < (k :: k' :: rest).length := Nat.mod_lt _ (Nat.succ_pos _)
    rw [List.getD_eq_getElem _ _ hlt]
    exact List.getElem_mem hlt

/-- The key FX0A takes, held in a byte, is pressed. -/
theorem keyDown_drawKey {s : State} {k : Nat} {more : List Nat} (hp : s.pressedKeys = k :: more) (c : Nat) :
    s.keyDown (drawKey s.params.keySelect c k more) = true := by
  rw [← s.mem_pressedKeys_iff, hp]
  exact drawKey_mem _ c k more

/-! ## FX0A, with and without a key (R110) -/

theorem exec_ldVxKey_of_nil {s : State} (x : Reg) (hp : s.pressedKeys = []) : exec (.ldVxKey x) s = .next s := by
  simp only [exec, execLdVxKey, ldKeyWith, hp]

/-- With a key pressed FX0A puts the key `drawKey` takes into Vx, counts the choice and goes on. -/
theorem exec_ldVxKey_of_cons {s : State} {k : Nat} {more : List Nat} (x : Reg) (hp : s.pressedKeys = k :: more) :
    ∃ t, exec (.ldVxKey x) s = .next t ∧
      (t.reg x).toNat = drawKey s.params.keySelect (Config.keyChoice s.draws) k more ∧
      t.pc = s.pc + 2#16 ∧ KeepsAllBut [x] [.draws] s t := by
  have hlt : drawKey s.params.keySelect (Config.keyChoice s.draws) k more < 16 := State.lt_of_keyDown (keyDown_drawKey hp _)
  refine ⟨_, by simp only [exec, execLdVxKey, ldKeyWith, hp]; rfl, ?_, rfl,
    (keeps_countDraw s).trans (keeps_writeResult _ x _)⟩
  rw [State.reg_advance, State.reg_setReg_same, BitVec.toNat_ofNat]
  exact Nat.mod_eq_of_lt (hlt.trans (by decide))

/-- A step at FX0A returns Waiting or Executed, as no key or some key is pressed (R64). -/
theorem stepReturn_of_ldVxKey {x : Reg} {s : State} (hs : s.fault = none) (hf : Fetchable s)
    (hd : decode (wordAtPc s) = .ok (.ldVxKey x)) :
    stepReturn s = some (if s.pressedKeys.isEmpty then .waiting else .executed) := by
  obtain ⟨t, h⟩ := exec_answers (.ldVxKey x) s
  have ht : t.fault = none := by
    rcases execLdVxKey_cases h with ⟨-, rfl⟩ | ⟨-, b, rfl⟩
    · exact hs
    · exact hs
  rw [stepReturn_of_decoded hs hf hd h]
  simp only [returnAfter, ht]
  rfl

/-- Settles O31, by whether the list of pressed keys is empty. -/
theorem keyWait : Obligations.KeyWait := by
  refine fun x s => ⟨fun hup => ?_, fun ⟨j, hj⟩ => ?_⟩
  · have hp : s.pressedKeys = [] := s.pressedKeys_eq_nil_iff.mpr hup
    exact ⟨exec_ldVxKey_of_nil x hp, fun hs hf hd => by rw [stepReturn_of_ldVxKey hs hf hd, hp]; rfl⟩
  · have hmem : j ∈ s.pressedKeys := (s.mem_pressedKeys_iff j).mpr hj
    obtain ⟨k, more, hp⟩ := List.exists_cons_of_ne_nil (List.ne_nil_of_mem hmem)
    obtain ⟨t, hexec, hreg, hpc, hkept⟩ := exec_ldVxKey_of_cons x hp
    refine ⟨fun hs hf hd => by rw [stepReturn_of_ldVxKey hs hf hd, hp]; rfl, t, hexec, ?_, fun hsel i hi => ?_, hpc, hkept⟩
    · rw [hreg]
      exact keyDown_drawKey hp _
    · rw [hreg, hsel]
      exact State.head_pressedKeys_le hp hi

end Sys2Proof.Machine
end

section
/-! PROOFS. Statements of the exception family: what a raise leaves unchanged (R118), the timer tick (R122, R123), and the
invariant along runs of host operations (R125, R126). The ports other than initialize and load write nothing the invariant
speaks of, or are the step. -/

namespace Sys2Proof.Machine

/-! ## Raises (R118) -/

/-- A step of a running core that ends with a fault has set the fault and done nothing else: no completed instruction and
no skipped word leaves one. -/
theorem eq_setFault_of_step {s t : State} {f : Fault} (hs : s.fault = none) (h : step s = .next t) (ht : t.fault = some f) :
    t = s.setFault f := by
  have raised {g : Fault} (hg : t = s.setFault g) : t = s.setFault f := by
    subst hg
    rw [Option.some.inj ht]
  have running (hkept : t.fault = s.fault) : t = s.setFault f := by simp [hkept, hs] at ht
  rcases step_cases h with ⟨hstuck, -⟩ | ⟨-, g, -, hg⟩ | ⟨-, -, -, hskip⟩ | ⟨-, -, i, -, hexec⟩
  · exact absurd hs hstuck
  · exact raised hg
  · exact running (by rw [hskip, State.fault_advance])
  · rcases exec_inv hexec with ⟨g, hg⟩ | ⟨-, hkept, -⟩
    · exact raised hg
    · exact running hkept

/-- A step returns `Faulted(f)` where the state it answers has the fault `f` (R64). -/
theorem stepReturn_of_fault {s t : State} {f : Fault} (h : step s = .next t) (ht : t.fault = some f) :
    stepReturn s = some (.faulted f) := by
  obtain ⟨u, o, hu, ho, hfaulted, -⟩ := stepReturnsOneOfFourOutcomes s
  cases h.symm.trans hu
  rw [ho, (hfaulted f).mpr ht]

/-- Settles O38: the answered state is `State.setFault`, whose frame is `faultsWith_setFault`. -/
theorem faultsArePrecise : Obligations.FaultsArePrecise := by
  intro s t f hs h ht
  refine ⟨?_, stepReturn_of_fault h ht⟩
  rw [eq_setFault_of_step hs h ht]
  exact faultsWith_setFault s f

/-! ## The tick (R122, R123) -/

@[simp] theorem countDown_toNat (t : Byte) : (countDown t).toNat = t.toNat - 1 := by
  unfold countDown
  split
  · next h => simp [h]
  · bv_omega

theorem soundEvent_iff (s : State) : soundEvent s = true ↔ s.st.toNat = 1 := by
  simp [soundEvent, ← BitVec.toNat_inj]

/-- Of the host operations only the tick returns a sound event. -/
theorem hostReturn_eq_sound_iff (op : HostOp) (s : State) : hostReturn op s = .sound ↔ op = .tick ∧ s.st.toNat = 1 := by
  rw [← soundEvent_iff]
  cases op with
  | tick => cases h : soundEvent s <;> simp [hostReturn, h]
  | load image => cases h : load image s <;> simp [hostReturn, h]
  | init | step | setKeys k | clearRedraw => simp [hostReturn]

/-- Settles O3: each timer by `countDown_toNat`, the event by `soundEvent_iff`, the frame by `keeps_tick`. -/
theorem tickCountsDown : Obligations.TickCountsDown := by
  refine fun s => ⟨countDown_toNat s.dt, countDown_toNat s.st, ?_, fun op => hostReturn_eq_sound_iff op s, rfl, keeps_tick s⟩
  rw [soundEvent_iff, State.st_tick, countDown_toNat]
  omega

/-! ## The invariant of the ports (R125, R130, R132) -/

theorem inv_initCore (s : State) : Inv (initCore s) := inv_resetWith s.params s.draws

/-- A block write past the font keeps the invariant. -/
theorem inv_setBytes {s : State} (hs : Inv s) {a : Nat} (ha : fontSize ≤ a) (bs : List Byte) : Inv (s.setBytes a bs) := by
  have hcanonical : Memory.wf s.params.fontTable (s.setBytes a bs).mem = true := State.wf_setBytes bs hs.memoryCanonical a
  have hfont (k : Fin fontSize) : (s.setBytes a bs).byteAt k.val = s.byteAt k.val :=
    State.byteAt_setBytes_other bs s (by omega)
  rw [State.setBytes_eq_mem] at hfont ⊢
  exact ⟨hs.pcBounded, hs.stackBounded, hcanonical, fun hp k => (hfont k).trans (hs.fontIntact hp k), hs.faultInfo⟩

theorem inv_load (image : List Byte) {s : State} (hs : Inv s) : Inv (hostState (.load image) s) := by
  rcases hostState_load_cases image s with h | h <;> rw [h]
  · exact inv_setBytes hs (by decide) image
  · exact hs

theorem inv_stepState {s : State} (hs : Inv s) : Inv (stepState s) := by
  rcases stepState_cases s with h | h
  · exact stepKeepsInvariant s _ hs h
  · rwa [h]

/-- The invariant reads neither the timers, nor the keypad, nor the redraw flag. -/
theorem Inv.setPorts {s : State} (hs : Inv s) (dt st : Byte) (key : Keypad) (redraw : Bool) :
    Inv { s with dt := dt, st := st, key := key, redraw := redraw } :=
  ⟨hs.pcBounded, hs.stackBounded, hs.memoryCanonical, hs.fontIntact, hs.faultInfo⟩

/-- Settles O54, port by port. -/
theorem hostOperationsKeepInvariant : Obligations.HostOperationsKeepInvariant := by
  refine ⟨inv_initCore, fun op s hs => ?_⟩
  cases op with
  | init => exact inv_initCore s
  | load image => exact inv_load image hs
  | step => exact inv_stepState hs
  | tick => exact hs.setPorts (countDown s.dt) (countDown s.st) s.key s.redraw
  | setKeys k => exact hs.setPorts s.dt s.st k s.redraw
  | clearRedraw => exact hs.setPorts s.dt s.st s.key false

/-! ## Legal runs (R126, R137) -/

/-- Settles O48: a non-empty beginning of a legal run starts with initialize, which gives the invariant, and every
operation keeps it (`hostRun_keeps`). -/
theorem legalRunsKeepInvariant : Obligations.LegalRunsKeepInvariant := by
  intro ops more s hlegal hne
  obtain ⟨initGives, opKeeps⟩ := hostOperationsKeepInvariant
  obtain ⟨op, rest, rfl⟩ := List.exists_cons_of_ne_nil hne
  obtain ⟨_, hstart, -⟩ := legalRun_starts hlegal
  obtain rfl : op = .init := (List.cons.inj hstart).1
  rw [hostRun_cons]
  exact hostRun_keeps (fun op _ => opKeeps op) (initGives s)

end Sys2Proof.Machine
end

section
/-! PROOFS. Statements of the family of reset and hazards: what the load port writes (R132). -/

namespace Sys2Proof.Machine

/-! ## The load (R132) -/

theorem load_of_fits {image : List Byte} (h : image.length ≤ maxImage) (s : State) :
    load image s = .ok (s.setBytes progBase image) :=
  if_neg (Nat.not_lt.mpr h)

theorem load_of_tooLarge {image : List Byte} (h : maxImage < image.length) (s : State) :
    load image s = .error .imageTooLarge :=
  if_pos h

/-- Settles O2: an image that fits is one block write at 0x200, which ends inside the memory. -/
theorem loadCopiesImage : Obligations.LoadCopiesImage := by
  refine fun image s => ⟨fun hfits hm => ?_, fun hlong => load_of_tooLarge hlong s⟩
  have hend : progBase + image.length ≤ memSize := by
    simp only [progBase, memSize]
    omega
  exact ⟨_, load_of_fits hfits s, fun k hk => State.byteAt_setBytes_in image s hm progBase k hk hend,
    memoryKeptOutside_setBytes s progBase rfl, State.pc_setBytes image s progBase, keeps_setBytes s progBase image⟩

end Sys2Proof.Machine
end
